-- ==== Sys2Proof/Word.lean ====
section
/-! DEFINITION. The two word types of the engine: bytes and nibbles (00_scope.md rules R9, R10). -/

namespace Sys2Proof

/-- A byte, bits 7..0 (00_scope.md rule R10). -/
abbrev Byte := BitVec 8

/-- A nibble, bits 3..0 (00_scope.md rule R10): half a byte, the unit of the 4-bit bootstrap. -/
abbrev Nibble := BitVec 4

end Sys2Proof
end

