-- ==== Sys2Proof/Config.lean ====
section
/-! DEFINITION. The implementation parameters of 00_scope.md rule R8: what one instance fixes, and the free values.
Nothing with no body here can be evaluated or have a value proved of it. -/

namespace Sys2Proof

/-- The named durations of 00_scope.md rule R8. The first four appear in `WAIT` events; `shortExec` is a duty of the
transport and is never an event (92_eei_decisions.md D4). -/
inductive Duration where
  | powerOn
  | initLong
  | initShort
  | longExec
  | shortExec
deriving DecidableEq, Repr

/-- The tab step after reset, `TAB_RESET` (00_scope.md rule R8). -/
def Config.tabReset : Byte := 4#8

/-- FREE VALUE (log entry 2): the transport's answer to the `n`-th `setup()` query where no answer was supplied as an
input (00_scope.md rule R8 `setup_answer`, 93 U13: any value, a Boolean draw per BEGIN). -/
opaque Config.setupAnswer : Nat → Bool

/-- FREE VALUES (log entry 8): the durations whose values are OPEN (92_eei_decisions.md D4), in some unit of time. -/
opaque Config.powerOnTime : Nat
/-- `T_INIT_SHORT` (log entry 8). -/
opaque Config.initShortTime : Nat
/-- By how much more than one unit `T_INIT_LONG` exceeds `T_INIT_SHORT` (log entry 8). -/
opaque Config.initLongExcess : Nat
/-- `T_LONG_EXEC` (log entry 8). -/
opaque Config.longExecTime : Nat
/-- `T_SHORT_EXEC` (log entry 8). -/
opaque Config.shortExecTime : Nat

/-- The length of a named duration. The one limit the spec sets, `T_INIT_SHORT` less than `T_INIT_LONG`
(00_scope.md rule R8), is built in. No rule of the engine reads it. -/
def Config.duration : Duration → Nat
  | .powerOn => Config.powerOnTime
  | .initLong => Config.initShortTime + 1 + Config.initLongExcess
  | .initShort => Config.initShortTime
  | .longExec => Config.longExecTime
  | .shortExec => Config.shortExecTime

end Sys2Proof
end

