-- ==== Sys2Proof/Syntax.lean ====
section
/-! DEFINITION. The instruction set: every mnemonic of spec/opcode_table.json is one constructor; rows that share a
mnemonic (RESERVED, WRITE.CTL_OTHER, WRITE.PRINTABLE) are one constructor that carries the byte the rows split. -/

namespace Sys2Proof

/-- The five formats of spec/opcode_table.json (30_encoding.md, opening and rules R76, R79, R81). -/
inductive Format where
  /-- a request frame: opcode byte, then operand bytes (rule R70) -/
  | req
  /-- the operand byte of WRITE (rule R75) -/
  | txt
  /-- a controller instruction byte, emitted in instruction mode (rule R76) -/
  | cmd
  /-- a bootstrap nibble (rule R79) -/
  | nib
  /-- a byte emitted in data mode (rule R81) -/
  | data
deriving DecidableEq, Repr

/-- One constructor per mnemonic of the opcode table. -/
inductive Instr where
  -- format REQ: the requests of 30_encoding.md rule R72, in opcode order
  | beginReq
  | endReq
  | write (c : Byte)
  | cursorSet (x y : Byte)
  | cursorGet
  | cursorHome
  | displayClear
  | displayOn
  | displayOff
  | backlightOn
  | backlightOff
  | cursorUnderlineOn
  | cursorUnderlineOff
  | cursorBlinkOn
  | cursorBlinkOff
  | displayScrollLeft
  | displayScrollRight
  | entryLeftToRight
  | entryRightToLeft
  | entryShiftOn
  | entryShiftOff
  | setCustomChar (id b0 b1 b2 b3 b4 b5 b6 b7 : Byte)
  | textNormalMode
  | textInvertedMode
  | tabStepGet
  | tabStepSet (s : Byte)
  /-- a reserved opcode, 0x00 or 0x1B..0xFF (rule R73) -/
  | reserved (opcode : Byte)
  -- format TXT: WRITE by the class of its operand byte (rule R75)
  | writeBel
  | writeBs
  | writeHt
  | writeLf
  | writeFf
  | writeCr
  | writeCtlOther (c : Byte)
  | writePrintable (c : Byte)
  -- format CMD: the controller instructions the engine emits (rules R76, R82)
  | clearDisplay
  | returnHome
  | entryModeSet (i s : BitVec 1)
  | displayControl (d c b : BitVec 1)
  | displayShiftLeft
  | displayShiftRight
  | functionSet (l : BitVec 1)
  | functionSet8Bit
  | setCgramAddr (a : BitVec 3)
  | setDdramAddr (a : BitVec 7)
  -- format NIB: the bootstrap nibbles (rule R79)
  | nibbleFs8
  | nibbleFs4
  -- format DATA: a byte emitted in data mode (rule R81)
  | data (d : Byte)
deriving DecidableEq, Repr

end Sys2Proof
end

