-- ==== Sys2Proof/WellFormed.lean ====
section
/-! DEFINITION. Which terms of `Instr` some word encodes: the operand bytes of the three rows whose mnemonic stands for
several rows of the opcode table. Every other term is well formed (an identity above 7 or a tab step of 0 decodes and then
faults, 60_exceptions.md rule R182). The conditions are the rows' masks and patterns, written apart from the classifier of
Decode.lean so that the two can be held against each other. -/

namespace Sys2Proof

/-- `c` agrees with `pattern` on the bits of `mask`: one row of spec/opcode_table.json. -/
def matchesRow (mask pattern c : Byte) : Bool := c &&& mask == pattern

/-- The seven RESERVED rows (30_encoding.md rule R73). -/
def isReservedOpcode (c : Byte) : Bool :=
  matchesRow 0xFF#8 0x00#8 c || matchesRow 0xFF#8 0x1B#8 c || matchesRow 0xFE#8 0x1C#8 c || matchesRow 0xFE#8 0x1E#8 c ||
  matchesRow 0xE0#8 0x20#8 c || matchesRow 0xC0#8 0x40#8 c || matchesRow 0x80#8 0x80#8 c

/-- The six WRITE.CTL_OTHER rows (30_encoding.md rule R75). -/
def isCtlOther (c : Byte) : Bool :=
  matchesRow 0xFC#8 0x00#8 c || matchesRow 0xFE#8 0x04#8 c || matchesRow 0xFF#8 0x06#8 c || matchesRow 0xFF#8 0x0B#8 c ||
  matchesRow 0xFE#8 0x0E#8 c || matchesRow 0xF0#8 0x10#8 c

/-- The three WRITE.PRINTABLE rows (30_encoding.md rule R75). -/
def isPrintable (c : Byte) : Bool :=
  matchesRow 0xE0#8 0x20#8 c || matchesRow 0xC0#8 0x40#8 c || matchesRow 0x80#8 0x80#8 c

/-- A term of `Instr` that some word of the opcode table encodes. -/
def Instr.wellFormed : Instr → Bool
  | .reserved c => isReservedOpcode c
  | .writeCtlOther c => isCtlOther c
  | .writePrintable c => isPrintable c
  | .beginReq | .endReq | .write _ | .cursorSet _ _ | .cursorGet | .cursorHome | .displayClear | .displayOn | .displayOff
  | .backlightOn | .backlightOff | .cursorUnderlineOn | .cursorUnderlineOff | .cursorBlinkOn | .cursorBlinkOff
  | .displayScrollLeft | .displayScrollRight | .entryLeftToRight | .entryRightToLeft | .entryShiftOn | .entryShiftOff
  | .setCustomChar _ _ _ _ _ _ _ _ _ | .textNormalMode | .textInvertedMode | .tabStepGet | .tabStepSet _
  | .writeBel | .writeBs | .writeHt | .writeLf | .writeFf | .writeCr
  | .clearDisplay | .returnHome | .entryModeSet _ _ | .displayControl _ _ _ | .displayShiftLeft | .displayShiftRight
  | .functionSet _ | .functionSet8Bit | .setCgramAddr _ | .setDdramAddr _ | .nibbleFs8 | .nibbleFs4 | .data _ => true

end Sys2Proof
end

