-- ==== Sys2Proof/Decode.lean ====
section
/-! DEFINITION. The decoders, total on any bytes, and after them the encoder (30_encoding.md).
Three encodings meet at this block and their words overlap: a host's words are request frames (`decode`), WRITE's operand is
a stream byte (`streamClass`, `decodeStreamByte`), and what the engine emits is read back by `decodeInstructionByte` and
`decodeNibble`. -/

namespace Sys2Proof

/-- The classes of a stream byte (30_encoding.md rule R75). -/
inductive StreamClass where
  | bel | bs | ht | lf | ff | cr | ctlOther | printable
deriving DecidableEq, Repr

/-- 30_encoding.md rule R75: the class of a stream byte, total on 0..255. -/
def streamClass (c : Byte) : StreamClass :=
  if c = 0x07#8 then .bel
  else if c = 0x08#8 then .bs
  else if c = 0x09#8 then .ht
  else if c = 0x0A#8 then .lf
  else if c = 0x0C#8 then .ff
  else if c = 0x0D#8 then .cr
  else if c.toNat < 0x20 then .ctlOther
  else .printable

/-- What the request decoder answers (30_encoding.md rule R86): an instruction with the bytes after it (a reserved opcode
is the instruction RESERVED, whose meaning raises `F_ILLEGAL_REQUEST`), or a frame cut short. -/
inductive Decoded where
  /-- an instruction, and the bytes that follow it -/
  | instr (i : Instr) (rest : List Byte)
  /-- rejected: the frame ends before its operand bytes (rule R73), `F_TRUNCATED_REQUEST` -/
  | truncated
deriving DecidableEq, Repr

/-- The request opcodes that take no operand (30_encoding.md rule R72). -/
def decodeBare (op : Byte) : Option Instr :=
  match op.toNat with
  | 0x01 => some .beginReq
  | 0x02 => some .endReq
  | 0x05 => some .cursorGet
  | 0x06 => some .cursorHome
  | 0x07 => some .displayClear
  | 0x08 => some .displayOn
  | 0x09 => some .displayOff
  | 0x0A => some .backlightOn
  | 0x0B => some .backlightOff
  | 0x0C => some .cursorUnderlineOn
  | 0x0D => some .cursorUnderlineOff
  | 0x0E => some .cursorBlinkOn
  | 0x0F => some .cursorBlinkOff
  | 0x10 => some .displayScrollLeft
  | 0x11 => some .displayScrollRight
  | 0x12 => some .entryLeftToRight
  | 0x13 => some .entryRightToLeft
  | 0x14 => some .entryShiftOn
  | 0x15 => some .entryShiftOff
  | 0x17 => some .textNormalMode
  | 0x18 => some .textInvertedMode
  | 0x19 => some .tabStepGet
  | _ => none

/-- How many operand bytes follow an opcode; it depends on the opcode alone (30_encoding.md rules R70, R72, R83). -/
def operandCount (op : Byte) : Nat :=
  if op = 0x03#8 then 1
  else if op = 0x04#8 then 2
  else if op = 0x16#8 then 9
  else if op = 0x1A#8 then 1
  else 0

/-- The request decoder (30_encoding.md rules R70, R72, R73, R86): reads one request off the front of a byte string.
A byte string with no byte at all is a frame cut short (log entry 5). -/
def decode : List Byte → Decoded
  | [] => .truncated
  | op :: rest =>
    if op = 0x03#8 then
      match rest with
      | c :: r => .instr (.write c) r
      | [] => .truncated
    else if op = 0x04#8 then
      match rest with
      | x :: y :: r => .instr (.cursorSet x y) r
      | _ => .truncated
    else if op = 0x16#8 then
      match rest with
      | id :: b0 :: b1 :: b2 :: b3 :: b4 :: b5 :: b6 :: b7 :: r => .instr (.setCustomChar id b0 b1 b2 b3 b4 b5 b6 b7) r
      | _ => .truncated
    else if op = 0x1A#8 then
      match rest with
      | s :: r => .instr (.tabStepSet s) r
      | [] => .truncated
    else
      match decodeBare op with
      | some i => .instr i rest
      | none => .instr (.reserved op) rest

/-- WRITE's operand byte as the instruction of its class (30_encoding.md rule R75), total on 0..255. -/
def decodeStreamByte (c : Byte) : Instr :=
  match streamClass c with
  | .bel => .writeBel
  | .bs => .writeBs
  | .ht => .writeHt
  | .lf => .writeLf
  | .ff => .writeFf
  | .cr => .writeCr
  | .ctlOther => .writeCtlOther c
  | .printable => .writePrintable c

/-- An instruction byte the engine emits, by its highest set bit (30_encoding.md rules R76, R80, R82). A byte that is no
form of rule R82 is one the engine never produces, and is rejected. -/
def decodeInstructionByte (b : Byte) : Option Instr :=
  if b.getLsbD 7 then some (.setDdramAddr (b.extractLsb' 0 7))
  else if b.getLsbD 6 then
    if b.extractLsb' 0 3 = 0#3 then some (.setCgramAddr (b.extractLsb' 3 3)) else none
  else if b.getLsbD 5 then
    if b = 0x30#8 then some .functionSet8Bit
    else if b.extractLsb' 0 4 = 0x8#4 then some (.functionSet (b.extractLsb' 4 1))
    else none
  else if b.getLsbD 4 then
    if b = 0x18#8 then some .displayShiftLeft
    else if b = 0x1C#8 then some .displayShiftRight
    else none
  else if b.getLsbD 3 then some (.displayControl (b.extractLsb' 2 1) (b.extractLsb' 1 1) (b.extractLsb' 0 1))
  else if b.getLsbD 2 then some (.entryModeSet (b.extractLsb' 1 1) (b.extractLsb' 0 1))
  else if b = 0x02#8 then some .returnHome
  else if b = 0x01#8 then some .clearDisplay
  else none

/-- A nibble the engine emits (30_encoding.md rule R79); it emits no other. -/
def decodeNibble (v : Nibble) : Option Instr :=
  if v = 0x3#4 then some .nibbleFs8
  else if v = 0x2#4 then some .nibbleFs4
  else none

/-- The decoder of a format: the first instruction of a byte string read in that format, and the bytes after it. A nibble
is read from the low half of its byte, and a high half that is not 0 is rejected. -/
def decodeAs : Format → List Byte → Option (Instr × List Byte)
  | .req, bs =>
    match decode bs with
    | .instr i rest => some (i, rest)
    | .truncated => none
  | _, [] => none
  | .txt, c :: rest => some (decodeStreamByte c, rest)
  | .cmd, b :: rest => (decodeInstructionByte b).map (·, rest)
  | .nib, b :: rest =>
    if b.extractLsb' 4 4 = 0#4 then (decodeNibble (b.extractLsb' 0 4)).map (·, rest) else none
  | .data, d :: rest => some (.data d, rest)

/-! The encoder, from the opcode table's encodings. -/

/-- The format of an instruction's row. -/
def Instr.format : Instr → Format
  | .beginReq | .endReq | .write _ | .cursorSet _ _ | .cursorGet | .cursorHome | .displayClear | .displayOn | .displayOff
  | .backlightOn | .backlightOff | .cursorUnderlineOn | .cursorUnderlineOff | .cursorBlinkOn | .cursorBlinkOff
  | .displayScrollLeft | .displayScrollRight | .entryLeftToRight | .entryRightToLeft | .entryShiftOn | .entryShiftOff
  | .setCustomChar _ _ _ _ _ _ _ _ _ | .textNormalMode | .textInvertedMode | .tabStepGet | .tabStepSet _ | .reserved _ => .req
  | .writeBel | .writeBs | .writeHt | .writeLf | .writeFf | .writeCr | .writeCtlOther _ | .writePrintable _ => .txt
  | .clearDisplay | .returnHome | .entryModeSet _ _ | .displayControl _ _ _ | .displayShiftLeft | .displayShiftRight
  | .functionSet _ | .functionSet8Bit | .setCgramAddr _ | .setDdramAddr _ => .cmd
  | .nibbleFs8 | .nibbleFs4 => .nib
  | .data _ => .data

/-- What the host asks for: a request, or a WRITE named by the class of its byte. -/
def Instr.isRequest (i : Instr) : Bool := i.format == .req || i.format == .txt

/-- The bytes of an instruction in its own format: a request frame (30_encoding.md rule R72), a stream byte (R75), an
instruction byte (R76), a nibble in the low half of a byte (R79), or a data byte (R81). -/
def encode : Instr → List Byte
  | .beginReq => [0x01#8]
  | .endReq => [0x02#8]
  | .write c => [0x03#8, c]
  | .cursorSet x y => [0x04#8, x, y]
  | .cursorGet => [0x05#8]
  | .cursorHome => [0x06#8]
  | .displayClear => [0x07#8]
  | .displayOn => [0x08#8]
  | .displayOff => [0x09#8]
  | .backlightOn => [0x0A#8]
  | .backlightOff => [0x0B#8]
  | .cursorUnderlineOn => [0x0C#8]
  | .cursorUnderlineOff => [0x0D#8]
  | .cursorBlinkOn => [0x0E#8]
  | .cursorBlinkOff => [0x0F#8]
  | .displayScrollLeft => [0x10#8]
  | .displayScrollRight => [0x11#8]
  | .entryLeftToRight => [0x12#8]
  | .entryRightToLeft => [0x13#8]
  | .entryShiftOn => [0x14#8]
  | .entryShiftOff => [0x15#8]
  | .setCustomChar id b0 b1 b2 b3 b4 b5 b6 b7 => [0x16#8, id, b0, b1, b2, b3, b4, b5, b6, b7]
  | .textNormalMode => [0x17#8]
  | .textInvertedMode => [0x18#8]
  | .tabStepGet => [0x19#8]
  | .tabStepSet s => [0x1A#8, s]
  | .reserved c => [c]
  | .writeBel => [0x07#8]
  | .writeBs => [0x08#8]
  | .writeHt => [0x09#8]
  | .writeLf => [0x0A#8]
  | .writeFf => [0x0C#8]
  | .writeCr => [0x0D#8]
  | .writeCtlOther c => [c]
  | .writePrintable c => [c]
  | .clearDisplay => [0x01#8]
  | .returnHome => [0x02#8]
  | .entryModeSet i s => [0x04#8 ||| i.setWidth 8 <<< 1 ||| s.setWidth 8]
  | .displayControl d c b => [0x08#8 ||| d.setWidth 8 <<< 2 ||| c.setWidth 8 <<< 1 ||| b.setWidth 8]
  | .displayShiftLeft => [0x18#8]
  | .displayShiftRight => [0x1C#8]
  | .functionSet l => [0x28#8 ||| l.setWidth 8 <<< 4]
  | .functionSet8Bit => [0x30#8]
  | .setCgramAddr a => [0x40#8 ||| a.setWidth 8 <<< 3]
  | .setDdramAddr a => [0x80#8 ||| a.setWidth 8]
  | .nibbleFs8 => [0x03#8]
  | .nibbleFs4 => [0x02#8]
  | .data d => [d]

/-! The host's words, whose bit 0 is the least significant bit of the first byte. -/

/-- The low `n` bytes of `w`, the least significant first. -/
def wordBytes (w : Nat) : Nat → List Byte
  | 0 => []
  | n + 1 => BitVec.ofNat 8 w :: wordBytes (w / 256) n

/-- The longest request frame, SET_CUSTOM_CHAR's (30_encoding.md rule R83). -/
def maxFrameLength : Nat := 10

/-- The one request frame at the front of a word of `nbits` bits, the bits above them zero: opcode, then as many operand
bytes as the opcode has. DESIGN CHOICE (log entry 18): operand bytes that the word does not hold read as 0, so that no word
is a frame cut short; frames the host issues are cut short where they end (30_encoding.md rule R73). -/
def wordFrame (nbits w : Nat) : List Byte :=
  match wordBytes (w % 2 ^ nbits) maxFrameLength with
  | [] => []
  | op :: rest => op :: rest.take (operandCount op)

/-- What the request decoder reads from such a word. A word names no format, so it is always read as a host's word, a
request frame (log entry 9). -/
def decodeTableWord (nbits w : Nat) : Option Instr :=
  match decode (wordFrame nbits w) with
  | .instr i _ => some i
  | .truncated => none

end Sys2Proof
end

