-- ==== Sys2Proof/Machine/Geometry.lean ====
section
/-! DEFINITION. The display geometry: the row-offset table it selects, and which geometries construction admits
(43_address_translation.md rules R141, R144). -/

namespace Sys2Proof.Machine

/-- `OFFSET[0..3]`, the row-offset table (10_state.md rule R28). -/
structure RowOffsets where
  row0 : Byte
  row1 : Byte
  row2 : Byte
  row3 : Byte
deriving DecidableEq, Repr

/-- `OFFSET[y]`. The table has the four entries 0 to 3, and no rule reads another: `y < H ≤ 4` wherever it is read
(10_state.md rule R28, 43_address_translation.md rule R144). Past the table the model answers its last entry (DESIGN CHOICE,
log entry 16). -/
def RowOffsets.get (t : RowOffsets) : Nat → Byte
  | 0 => t.row0
  | 1 => t.row1
  | 2 => t.row2
  | _ => t.row3

/-- 43_address_translation.md rule R141: the table chosen by the geometry. -/
def rowOffsets (w h : Nat) : RowOffsets :=
  if w = 16 ∧ h = 4 then ⟨0#8, 64#8, 16#8, 80#8⟩ else ⟨0#8, 64#8, 20#8, 84#8⟩

/-- 43_address_translation.md rule R144: `1 ≤ H ≤ 4`, `1 ≤ W`, and the last cell of every row has a 7-bit address. -/
def geometryAdmitted (w h : Nat) : Bool :=
  decide (1 ≤ h) && decide (h ≤ 4) && decide (1 ≤ w) &&
    (List.range h).all fun y => decide (((rowOffsets w h).get y).toNat + w - 1 ≤ 127)

end Sys2Proof.Machine
end

