-- ==== Sys2Proof/Machine/State.lean ====
section
/-! DEFINITION. The engine state (10_state.md), its observation (70_reset_and_hazards.md rule R212), the inputs it has not
yet taken, the reasons a step can stop, and construction, which is the engine's reset (rule R200). -/

namespace Sys2Proof.Machine

/-- `INIT`, the initialization state (10_state.md rule R32). -/
inductive InitState where
  | powerOn | negotiating | configured | ready | shutdown
deriving DecidableEq, Repr

/-- `DM`, the transport's data mode: instruction is 0, data is 1 (10_state.md rule R33). -/
inductive DataMode where
  | instruction | data
deriving DecidableEq, Repr

/-- `TM`, the text mode flag: normal is 0, inverted is 1 (10_state.md rule R30). -/
inductive TextMode where
  | normal | inverted
deriving DecidableEq, Repr

/-- `BL`, the backlight state last commanded (10_state.md rule R34). -/
inductive Backlight where
  | unknown | off | on
deriving DecidableEq, Repr

/-- `BUS8`, what `setup()` reported at the last BEGIN (10_state.md rule R35). -/
inductive BusReport where
  | unknown | fourBit | eightBit
deriving DecidableEq, Repr

/-- `ACSP`, the controller address space last selected (10_state.md rule R36). -/
inductive AddressSpace where
  | ddram | cgram
deriving DecidableEq, Repr

/-- The transport events of a trace (20_memory.md rule R53). -/
inductive Event where
  | setup
  | nibble (v : Nibble)
  | byte (v : Byte)
  | mode (m : DataMode)
  | backlight (on : Bool)
  | wait (t : Duration)
deriving DecidableEq, Repr

/-- The responses of requests (30_encoding.md rule R71). `none` is the response that carries no value; a request that
faults has no response at all. -/
inductive Response where
  | none
  | bool (b : Bool)
  | count (n : Nat)
  | pos (x y : Nat)
  | step (s : Byte)
deriving DecidableEq, Repr

/-- What one completed request showed: its response and its trace (70_reset_and_hazards.md rule R212). -/
structure Observation where
  response : Response
  trace : List Event
deriving DecidableEq, Repr

/-- The engine. The registers are those of 10_state.md rule R22; the last six fields are the observation of rule R39 and
the inputs that the host and the transport have supplied. -/
structure State where
  /-- `MODE`, the entry-mode mirror (rule R23) -/
  mode : Byte
  /-- `CNTL`, the display-control mirror (rule R24) -/
  cntl : Byte
  /-- `FUNC`, the function-set mirror (rule R25) -/
  func : Byte
  /-- `CX`, the tracked column, 0..W (rule R27) -/
  cx : Nat
  /-- `CY`, the tracked row (rule R27) -/
  cy : Nat
  /-- `OFFSET`, the row-offset table (rule R28) -/
  offset : RowOffsets
  /-- `W`, the width (rule R29) -/
  w : Nat
  /-- `H`, the height (rule R29) -/
  h : Nat
  /-- `TM`, the text mode (rule R30) -/
  tm : TextMode
  /-- `TAB`, the tab step (rule R31) -/
  tab : Byte
  /-- `INIT`, the initialization state (rule R32) -/
  init : InitState
  /-- `DM`, the data mode (rule R33) -/
  dm : DataMode
  /-- `BL`, the backlight (rule R34) -/
  bl : Backlight
  /-- `BUS8`, the bus report (rule R35) -/
  bus8 : BusReport
  /-- `ACSP`, the controller address space (rule R36) -/
  acsp : AddressSpace
  /-- `FLT`, the fault register (rule R37) -/
  flt : Byte
  /-- `TR`, the trace of the request being performed, or of the last one (00_scope.md rule R11) -/
  tr : List Event
  /-- the response of the last request, absent where it faulted or none has been made (30_encoding.md rule R71) -/
  response : Option Response
  /-- the observations of the completed requests, in order (70_reset_and_hazards.md rule R212) -/
  observed : List Observation
  /-- the frames the host has issued and the engine has not taken, oldest first (log entry 3) -/
  pending : List (List Byte)
  /-- the answers the transport will give to `setup()`, the next first (log entry 2) -/
  setupAnswers : List Bool
  /-- how many `setup()` queries were made: the argument of the free value `Config.setupAnswer` (log entry 2) -/
  draws : Nat
deriving DecidableEq, Repr

/-- Why the engine has no further step. -/
inductive Fault where
  /-- The engine is faulted: FLT holds `code`, not 0, and an engine with FLT ≠ 0 takes no further step (10_state.md rule
  R37, 60_exceptions.md rules R181, R187). Raised by `step` and by every meaning in such a state. Safe: it is the spec's. -/
  | faulted (code : Byte)
deriving DecidableEq, Repr

/-- Why the model gives no next state where the engine has no fault. -/
inductive Refusal where
  /-- An instruction with no meaning yet, by its mnemonic. Raised by `exec`. Safe: nothing is claimed of it. -/
  | notModelled (mnemonic : String)
  /-- Construction refuses the geometry (43_address_translation.md rule R144, 60_exceptions.md rule R195). Raised by
  `State.construct`. Safe: it is the spec's. -/
  | geometryRefused (w h : Nat)
  /-- A controller instruction is emitted while the transport is in data mode: `cmd` requires `DM = 0`
  (00_scope.md rule R11, log entry 7). Raised by the meanings of the CMD rows. Safe: the model stops. -/
  | needsInstructionMode
  /-- A data byte is emitted while the transport is in instruction mode: `dat` requires `DM = 1` (00_scope.md rule R11,
  log entry 7). Raised by the meaning of the DATA row. Safe: the model stops. -/
  | needsDataMode
deriving DecidableEq, Repr

/-- What a meaning and a step answer. -/
abbrev Result := Host.Outcome State Fault Refusal

/-- The engine just built with geometry `(w, h)`: every register at its reset value (70_reset_and_hazards.md rule R201),
nothing emitted (rule R200), nothing supplied from outside yet. -/
def State.initial (w h : Nat) : State where
  mode := 0x06#8
  cntl := 0x08#8
  func := 0x28#8
  cx := 0
  cy := 0
  offset := rowOffsets w h
  w := w
  h := h
  tm := .normal
  tab := Config.tabReset
  init := .powerOn
  dm := .instruction
  bl := .unknown
  bus8 := .unknown
  acsp := .ddram
  flt := 0x00#8
  tr := []
  response := none
  observed := []
  pending := []
  setupAnswers := []
  draws := 0

/-- Construction (70_reset_and_hazards.md rule R200): refused for a geometry that is not admitted (60_exceptions.md rule
R195). -/
def State.construct (w h : Nat) : Result :=
  if geometryAdmitted w h then .next (State.initial w h) else .refused (.geometryRefused w h)

/-- The machine right after reset: the engine constructed as 16×2, the geometry of most of the spec's examples. The
geometry is a construction argument with no value in the spec (DESIGN CHOICE, log entry 1). -/
def State.reset : State := State.initial 16 2

end Sys2Proof.Machine
end

