-- ==== Sys2Proof/Machine/Ops.lean ====
section
/-! DEFINITION. The primitives of 00_scope.md rule R11 as functions on the state, the faults of 60_exceptions.md as one
shared operation, the admission of requests, and what the host and the transport supply from outside. -/

namespace Sys2Proof.Machine

/-! Emitting events. -/

/-- Append one event to the current request's trace (00_scope.md rule R11). -/
def emit (e : Event) (s : State) : State := { s with tr := s.tr ++ [e] }

/-- `cmd(b)`: an instruction byte. Its requirement `DM = 0` holds at every use in a rule, from a state with `DM = 0`
(00_scope.md rule R11, 10_state.md rule R33; log entry 7). -/
def cmd (b : Byte) (s : State) : State := emit (.byte b) s

/-- `dat(b)`: a data byte. Its requirement `DM = 1` holds at every use, each standing between `setmode(1)` and
`setmode(0)` (00_scope.md rule R11; log entry 7). -/
def dat (b : Byte) (s : State) : State := emit (.byte b) s

/-- Several data bytes in a row, one event each (20_memory.md rule R52). -/
def datAll : List Byte → State → State
  | [], s => s
  | b :: bs, s => datAll bs (dat b s)

/-- `nib(v)`, which requires no data mode (00_scope.md rule R11). -/
def nib (v : Nibble) (s : State) : State := emit (.nibble v) s

/-- `wait(T)` (00_scope.md rule R11); it has no effect on engine registers (20_memory.md rule R62). -/
def wait (t : Duration) (s : State) : State := emit (.wait t) s

/-- `setmode(m)`: emit `MODE(m)`, then `DM <- m` (00_scope.md rule R11). -/
def setMode (m : DataMode) (s : State) : State := { emit (.mode m) s with dm := m }

/-- `bl(b)`: emit `BACKLIGHT(b)`, then `BL <- b` (00_scope.md rule R11). -/
def backlight (on : Bool) (s : State) : State :=
  { emit (.backlight on) s with bl := if on then .on else .off }

/-- The transport's answer to the next `setup()`: the next one supplied as an input, or else a free value (00_scope.md
rule R8 `setup_answer`, log entry 2). -/
def setupAnswer (s : State) : Bool :=
  match s.setupAnswers with
  | q :: _ => q
  | [] => Config.setupAnswer s.draws

/-- `q <- setup()`: emit `SETUP`; the answer is `setupAnswer` of the state before, which this uses up (00_scope.md rule
R11). -/
def setup (s : State) : State :=
  { emit .setup s with setupAnswers := s.setupAnswers.tail, draws := s.draws + 1 }

/-! Requests: their beginning, their response, their faults. -/

/-- A request begins: its trace is empty and it has no response yet (00_scope.md rules R4, R11). -/
def startRequest (s : State) : State := { s with tr := [], response := none }

/-- `return v` (00_scope.md rule R11). -/
def respond (r : Response) (s : State) : State := { s with response := some r }

/-- The fault codes of 60_exceptions.md rule R180. -/
inductive FaultCode where
  | illegalRequest
  | truncatedRequest
  | notReady
  | alreadyReady
  | badCharId
  | badTabStep
deriving DecidableEq, Repr

/-- The value recorded in FLT (60_exceptions.md rule R180). -/
def faultValue : FaultCode → Byte
  | .illegalRequest => 0x01#8
  | .truncatedRequest => 0x02#8
  | .notReady => 0x03#8
  | .alreadyReady => 0x04#8
  | .badCharId => 0x05#8
  | .badTabStep => 0x06#8

/-- `raise Fault(code)`, the one operation that takes a fault: no event, no response, and no register written but FLT
(60_exceptions.md rules R181, R186). Nothing returns from it (rule R187). The faulting request is a next state with FLT
written; the step after it is the fault outcome (DEDUCED, log entry 12). -/
def raiseFault (code : FaultCode) (s : State) : State := { startRequest s with flt := faultValue code }

/-- An engine with FLT ≠ 0 has no further step (60_exceptions.md rule R181). -/
def unlessFaulted (s : State) (r : Result) : Result :=
  if s.flt = 0x00#8 then r else .fault (.faulted s.flt)

/-- A request that raises a fault whatever the state of INIT. -/
def faultRequest (code : FaultCode) (s : State) : Result := unlessFaulted s (.next (raiseFault code s))

/-- A request admitted in every INIT state (60_exceptions.md rule R184, third row). -/
def inAnyState (s : State) (body : State → State) : Result := unlessFaulted s (.next (body (startRequest s)))

/-- A request admitted in READY only (60_exceptions.md rule R184, second row). -/
def whenReady (s : State) (body : State → State) : Result :=
  unlessFaulted s (.next (if s.init = .ready then body (startRequest s) else raiseFault .notReady s))

/-- A request admitted in POWER_ON and SHUTDOWN only (60_exceptions.md rule R184, first row). -/
def whenNotStarted (s : State) (body : State → State) : Result :=
  unlessFaulted s
    (.next (if s.init = .powerOn ∨ s.init = .shutdown then body (startRequest s) else raiseFault .alreadyReady s))

/-! Emission of a single controller instruction, nibble or data byte: the rows CMD, NIB and DATA of the opcode table. The
event is appended to the trace of the request that emits it (00_scope.md rule R12). -/

/-- One primitive that requires no data mode, `nib` (00_scope.md rule R11). -/
def emitInEitherMode (s : State) (op : State → State) : Result := unlessFaulted s (.next (op s))

/-- One primitive that requires `DM = 0`, `cmd` (00_scope.md rule R11). -/
def emitInInstructionMode (s : State) (op : State → State) : Result :=
  unlessFaulted s (if s.dm = .instruction then .next (op s) else .refused .needsInstructionMode)

/-- One primitive that requires `DM = 1`, `dat` (00_scope.md rule R11). -/
def emitInDataMode (s : State) (op : State → State) : Result :=
  unlessFaulted s (if s.dm = .data then .next (op s) else .refused .needsDataMode)

/-! The outside (70_reset_and_hazards.md rule R203). -/

/-- The host issues a request frame: it waits behind those not yet taken (20_memory.md rule R61). -/
def State.issue (frame : List Byte) (s : State) : State := { s with pending := s.pending ++ [frame] }

/-- The transport settles its answer to a coming `setup()`, after those already settled (00_scope.md rule R8). -/
def State.answerSetup (q : Bool) (s : State) : State := { s with setupAnswers := s.setupAnswers ++ [q] }

/-- A completed request joins the run's observation; one with no response is a fault, which ends the run
(70_reset_and_hazards.md rule R212; DEDUCED, log entry 13). -/
def recordObservation (s : State) : State :=
  match s.response with
  | some r => { s with observed := s.observed ++ [⟨r, s.tr⟩] }
  | none => s

end Sys2Proof.Machine
end

