-- ==== Sys2Proof/Machine/Operands.lean ====
section
/-! DEFINITION. Operand forms and composed values: operand bytes as naturals, addresses, the instruction bytes that carry
them, and the byte form of responses (30_encoding.md). -/

namespace Sys2Proof.Machine

/-- The 8-bit function-set code of the bootstrap (30_encoding.md rules R79, R80). -/
def fs8 : Byte := 0x30#8

/-- The 4-bit function-set code of the bootstrap (30_encoding.md rule R79). -/
def fs4 : Byte := 0x20#8

/-- The space of line-feed fill and backspace (30_encoding.md rule R81). -/
def spaceChar : Byte := 0x20#8

/-- `v[7:4]`, which a 4-bit bus transfers first (20_memory.md rules R51, R55). -/
def highNibble (v : Byte) : Nibble := v.extractLsb' 4 4

/-- `v[3:0]`, which a 4-bit bus transfers second (20_memory.md rules R51, R55). -/
def lowNibble (v : Byte) : Nibble := v.extractLsb' 0 4

/-- An operand byte, read as an unsigned natural (30_encoding.md rule R74). -/
def operand (b : Byte) : Nat := b.toNat

/-- The DDRAM address of cell `(x, y)`, a natural (43_address_translation.md rule R140). -/
def ddramAddr (offset : RowOffsets) (x y : Nat) : Nat := (offset.get y).toNat + x

/-- The set-DDRAM-address byte `0x80 | a` (30_encoding.md rule R77). -/
def setDdramByte (a : Nat) : Byte := 0x80#8 ||| BitVec.ofNat 8 a

/-- The set-CGRAM-address byte `0x40 | (id << 3)` (30_encoding.md rule R78). -/
def setCgramByte (id : Byte) : Byte := 0x40#8 ||| (id <<< 3)

/-- The byte form of a response (30_encoding.md rule R71). -/
def Response.bytes : Response → List Byte
  | .none => []
  | .bool b => [if b then 0x01#8 else 0x00#8]
  | .count n => [BitVec.ofNat 8 n]
  | .pos x y => [BitVec.ofNat 8 x, BitVec.ofNat 8 y]
  | .step s => [s]

end Sys2Proof.Machine
end

