-- ==== Sys2Proof/Machine/Flags.lean ====
section
/-! DEFINITION. The bits and flags of the engine: the mirror bits with their flush (42_command_encoding.md rule R110), the
text mode flag, and the bus report. The engine has no condition codes (10_state.md rule R40). -/

namespace Sys2Proof.Machine

/-- The mirrors that toggle requests write (42_command_encoding.md rule R110). -/
inductive Mirror where
  | mode | cntl
deriving DecidableEq, Repr

/-- The mirror's byte. -/
def mirrorValue (m : Mirror) (s : State) : Byte :=
  match m with
  | .mode => s.mode
  | .cntl => s.cntl

/-- `M <- v`. -/
def writeMirror (m : Mirror) (v : Byte) (s : State) : State :=
  match m with
  | .mode => { s with mode := v }
  | .cntl => { s with cntl := v }

/-- Bit `k` of a byte set to 1. -/
def setBit (v : Byte) (k : Nat) : Byte := v ||| (1#8 <<< k)

/-- Bit `k` of a byte set to 0. -/
def clearBit (v : Byte) (k : Nat) : Byte := v &&& ~~~(1#8 <<< k)

/-- `set_bit_op(M, k)`: `M[k] <- 1`, then the whole mirror byte is sent, also where the bit was 1 already
(42_command_encoding.md rule R110). -/
def setBitOp (m : Mirror) (k : Nat) (s : State) : State :=
  cmd (setBit (mirrorValue m s) k) (writeMirror m (setBit (mirrorValue m s) k) s)

/-- `clear_bit_op(M, k)`: `M[k] <- 0`, then the whole mirror byte is sent, also where the bit was 0 already
(42_command_encoding.md rule R110). -/
def clearBitOp (m : Mirror) (k : Nat) (s : State) : State :=
  cmd (clearBit (mirrorValue m s) k) (writeMirror m (clearBit (mirrorValue m s) k) s)

/-- `1 - TM` (44_text_stream.md rule R151). -/
def TextMode.inverse : TextMode → TextMode
  | .normal => .inverted
  | .inverted => .normal

/-- BUS8 after a `setup()` that answered `q` (41_initialization.md rule R100). -/
def busReport (q : Bool) : BusReport := if q then .eightBit else .fourBit

end Sys2Proof.Machine
end

