-- ==== Sys2Proof/Machine/CommandEncoding.lean ====
section
/-! DEFINITION. The command encoder and flush: the requests of 42_command_encoding.md, one meaning each. -/

namespace Sys2Proof.Machine

/-! Internal operations (00_scope.md rule R12): they make no admission check. -/

/-- `display_on_op()` (42_command_encoding.md rule R111). -/
def displayOnOp (s : State) : State := setBitOp .cntl 2 s

/-- `display_clear_op()`: clear, home the cursor, and set MODE[1] with no flush, because the controller's clear sets
increment (42_command_encoding.md rule R121, 90_conflicts.md C3). -/
def displayClearOp (s : State) : State :=
  wait .longExec { cmd 0x01#8 s with cx := 0, cy := 0, mode := setBit s.mode 1, acsp := .ddram }

/-! Display-control requests (CNTL). -/

/-- DISPLAY_ON (42_command_encoding.md rule R111). -/
def execDisplayOn (s : State) : Result := whenReady s fun s => respond .none (displayOnOp s)

/-- DISPLAY_OFF (42_command_encoding.md rule R112). -/
def execDisplayOff (s : State) : Result := whenReady s fun s => respond .none (clearBitOp .cntl 2 s)

/-- CURSOR_UNDERLINE_ON (42_command_encoding.md rule R113). -/
def execCursorUnderlineOn (s : State) : Result := whenReady s fun s => respond .none (setBitOp .cntl 1 s)

/-- CURSOR_UNDERLINE_OFF (42_command_encoding.md rule R114). -/
def execCursorUnderlineOff (s : State) : Result := whenReady s fun s => respond .none (clearBitOp .cntl 1 s)

/-- CURSOR_BLINK_ON (42_command_encoding.md rule R115). -/
def execCursorBlinkOn (s : State) : Result := whenReady s fun s => respond .none (setBitOp .cntl 0 s)

/-- CURSOR_BLINK_OFF (42_command_encoding.md rule R116). -/
def execCursorBlinkOff (s : State) : Result := whenReady s fun s => respond .none (clearBitOp .cntl 0 s)

/-! Entry-mode requests (MODE). -/

/-- ENTRY_LEFT_TO_RIGHT (42_command_encoding.md rule R117). -/
def execEntryLeftToRight (s : State) : Result := whenReady s fun s => respond .none (setBitOp .mode 1 s)

/-- ENTRY_RIGHT_TO_LEFT (42_command_encoding.md rule R118). -/
def execEntryRightToLeft (s : State) : Result := whenReady s fun s => respond .none (clearBitOp .mode 1 s)

/-- ENTRY_SHIFT_ON (42_command_encoding.md rule R119). -/
def execEntryShiftOn (s : State) : Result := whenReady s fun s => respond .none (setBitOp .mode 0 s)

/-- ENTRY_SHIFT_OFF (42_command_encoding.md rule R120). -/
def execEntryShiftOff (s : State) : Result := whenReady s fun s => respond .none (clearBitOp .mode 0 s)

/-! Clear and scroll. -/

/-- DISPLAY_CLEAR (42_command_encoding.md rule R121). -/
def execDisplayClear (s : State) : Result := whenReady s fun s => respond .none (displayClearOp s)

/-- DISPLAY_SCROLL_LEFT (42_command_encoding.md rule R122): one byte, no mirror (90_conflicts.md C2). -/
def execDisplayScrollLeft (s : State) : Result := whenReady s fun s => respond .none (cmd 0x18#8 s)

/-- DISPLAY_SCROLL_RIGHT (42_command_encoding.md rule R123): one byte, no mirror (90_conflicts.md C2). -/
def execDisplayScrollRight (s : State) : Result := whenReady s fun s => respond .none (cmd 0x1C#8 s)

/-! Text mode, backlight, tab step. -/

/-- TEXT_NORMAL_MODE (42_command_encoding.md rule R124). -/
def execTextNormalMode (s : State) : Result := inAnyState s fun s => respond .none { s with tm := .normal }

/-- TEXT_INVERTED_MODE (42_command_encoding.md rule R125). -/
def execTextInvertedMode (s : State) : Result := inAnyState s fun s => respond .none { s with tm := .inverted }

/-- BACKLIGHT_ON (42_command_encoding.md rule R126). -/
def execBacklightOn (s : State) : Result := whenReady s fun s => respond .none (backlight true s)

/-- BACKLIGHT_OFF (42_command_encoding.md rule R127). -/
def execBacklightOff (s : State) : Result := whenReady s fun s => respond .none (backlight false s)

/-- TAB_STEP_GET (42_command_encoding.md rule R128). -/
def execTabStepGet (s : State) : Result := inAnyState s fun s => respond (.step s.tab) s

/-- TAB_STEP_SET (42_command_encoding.md rule R129): a step of 0 faults. -/
def execTabStepSet (step : Byte) (s : State) : Result :=
  if step = 0x00#8 then faultRequest .badTabStep s
  else inAnyState s fun s => respond .none { s with tab := step }

end Sys2Proof.Machine
end

