-- ==== Sys2Proof/Machine/Cursor.lean ====
section
/-! DEFINITION. The row-offset translator and the cursor requests (43_address_translation.md). -/

namespace Sys2Proof.Machine

/-- Where a cursor move to `(x, y)` lands on a display of `w` columns and `h` rows: `(x, y)` where it is in range and `(0, 0)` otherwise
(43_address_translation.md rule R142). The operands are integers: internal callers pass `x = -1` and `x ≥ 256`. -/
def clampCell (w h : Nat) (x y : Int) : Nat × Nat :=
  if x < 0 ∨ (w : Int) ≤ x ∨ y < 0 ∨ (h : Int) ≤ y then (0, 0) else (x.toNat, y.toNat)

/-- `CX <- x ; CY <- y ; ACSP <- DDRAM` after `cmd(0x80 | ddram_addr(x, y))` (43_address_translation.md rule R142). -/
def moveTo (p : Nat × Nat) (s : State) : State :=
  { cmd (setDdramByte (ddramAddr s.offset p.1 p.2)) s with cx := p.1, cy := p.2, acsp := .ddram }

/-- `cursor_set_op(x, y)` (43_address_translation.md rule R142): the address is sent for the fallback cell too. -/
def cursorSetOp (x y : Int) (s : State) : State := moveTo (clampCell s.w s.h x y) s

/-- CURSOR_SET (43_address_translation.md rule R142). -/
def execCursorSet (x y : Byte) (s : State) : Result :=
  whenReady s fun s => respond .none (cursorSetOp (operand x) (operand y) s)

/-- CURSOR_GET (43_address_translation.md rule R143). -/
def execCursorGet (s : State) : Result := inAnyState s fun s => respond (.pos s.cx s.cy) s

/-- The body of CURSOR_HOME (43_address_translation.md rule R145). -/
def cursorHomeOp (s : State) : State :=
  wait .longExec { cmd 0x02#8 s with cx := 0, cy := 0, acsp := .ddram }

/-- CURSOR_HOME (43_address_translation.md rule R145). -/
def execCursorHome (s : State) : Result := whenReady s fun s => respond .none (cursorHomeOp s)

end Sys2Proof.Machine
end

