-- ==== Sys2Proof/Machine/TextStream.lean ====
section
/-! DEFINITION. The text-stream interpreter (44_text_stream.md): one operation per byte rule, WRITE, and WRITE by class. -/

namespace Sys2Proof.Machine

/-! The byte rules. -/

/-- `linefeed_op()` (44_text_stream.md rule R157): the next row, blanked, the cursor at its start (90_conflicts.md C4). -/
def linefeedOp (s : State) : State :=
  let s := cursorSetOp 0 (s.cy + 1) s
  let s := setMode .data s
  let s := datAll (List.replicate s.w spaceChar) s
  let s := setMode .instruction s
  cursorSetOp s.cx s.cy s

/-- The implicit wrap of a printable byte on a full line (44_text_stream.md rule R158). -/
def wrapIfFull (s : State) : State := if s.cx = s.w then linefeedOp s else s

/-- `print_op(c)` (44_text_stream.md rule R158). CX is incremented whatever MODE is. -/
def printOp (c : Byte) (s : State) : State :=
  let s := wrapIfFull s
  let s := { s with cx := s.cx + 1 }
  setMode .instruction (dat c (setMode .data s))

/-- BEL (44_text_stream.md rule R151). -/
def belOp (s : State) : State := respond (.count 1) { s with tm := s.tm.inverse }

/-- BS (44_text_stream.md rule R152): at column 0 the clamp gives cell (0, 0) (90_conflicts.md C6). -/
def bsOp (s : State) : State :=
  let s := cursorSetOp ((s.cx : Int) - 1) s.cy s
  let s := printOp spaceChar s
  respond (.count 1) (cursorSetOp ((s.cx : Int) - 1) s.cy s)

/-- The column a tab aims at, a natural that is not wrapped (44_text_stream.md rule R153). -/
def tabTarget (cx : Nat) (tab : Byte) : Nat := cx + tab.toNat - cx % tab.toNat

/-- HT (44_text_stream.md rule R153): a column at or past the width ends at (0, 0) by the clamp (90_conflicts.md C5). -/
def htOp (s : State) : State :=
  let nx := tabTarget s.cx s.tab
  let ny := s.cy + if s.w ≤ nx then 1 else 0
  respond (.count 1) (cursorSetOp nx ny s)

/-- FF (44_text_stream.md rule R154). -/
def ffOp (s : State) : State := respond (.count 1) (displayClearOp s)

/-- CR (44_text_stream.md rule R155). -/
def crOp (s : State) : State := respond (.count 1) (cursorSetOp 0 s.cy s)

/-- CTL_OTHER (44_text_stream.md rule R156). -/
def ctlOtherOp (s : State) : State := respond (.count 0) s

/-- LF (44_text_stream.md rule R157). -/
def lfOp (s : State) : State := respond (.count 1) (linefeedOp s)

/-- PRINTABLE (44_text_stream.md rule R158). -/
def printableOp (c : Byte) (s : State) : State := respond (.count 1) (printOp c s)

/-! The requests. WRITE is admitted in READY for every byte, because admission is by the opcode (44_text_stream.md rule
R150). A row of the text classes is WRITE of a byte of that class, admission included (DEDUCED, log entry 15). -/

/-- WRITE (44_text_stream.md rule R150). -/
def execWrite (c : Byte) (s : State) : Result :=
  whenReady s fun s =>
    match streamClass c with
    | .bel => belOp s
    | .bs => bsOp s
    | .ht => htOp s
    | .ff => ffOp s
    | .cr => crOp s
    | .ctlOther => ctlOtherOp s
    | .lf => lfOp s
    | .printable => printableOp c s

/-- WRITE of a BEL byte (44_text_stream.md rules R150, R151). -/
def execWriteBel (s : State) : Result := whenReady s belOp

/-- WRITE of a BS byte (44_text_stream.md rules R150, R152). -/
def execWriteBs (s : State) : Result := whenReady s bsOp

/-- WRITE of an HT byte (44_text_stream.md rules R150, R153). -/
def execWriteHt (s : State) : Result := whenReady s htOp

/-- WRITE of an LF byte (44_text_stream.md rules R150, R157). -/
def execWriteLf (s : State) : Result := whenReady s lfOp

/-- WRITE of an FF byte (44_text_stream.md rules R150, R154). -/
def execWriteFf (s : State) : Result := whenReady s ffOp

/-- WRITE of a CR byte (44_text_stream.md rules R150, R155). -/
def execWriteCr (s : State) : Result := whenReady s crOp

/-- WRITE of a byte of class CTL_OTHER, which no rule tells apart from another (44_text_stream.md rules R150, R156). -/
def execWriteCtlOther (_c : Byte) (s : State) : Result := whenReady s ctlOtherOp

/-- WRITE of a printable byte (44_text_stream.md rules R150, R158). -/
def execWritePrintable (c : Byte) (s : State) : Result := whenReady s (printableOp c)

end Sys2Proof.Machine
end

