-- ==== Sys2Proof/Machine/CustomChar.lean ====
section
/-! DEFINITION. Custom character programming (45_custom_char.md). -/

namespace Sys2Proof.Machine

/-- The body of SET_CUSTOM_CHAR for an identity in 0..7 (45_custom_char.md rule R170): the slot's address, then the bitmap
bytes in data mode, unmasked. No DDRAM address is restored (70_reset_and_hazards.md rule R207). -/
def setCustomCharOp (id : Byte) (bitmap : List Byte) (s : State) : State :=
  let s := cmd (setCgramByte id) s
  let s := datAll bitmap (setMode .data s)
  { setMode .instruction s with acsp := .cgram }

/-- SET_CUSTOM_CHAR (45_custom_char.md rule R170). Admission is checked before the identity (60_exceptions.md rule
R182). -/
def execSetCustomChar (id b0 b1 b2 b3 b4 b5 b6 b7 : Byte) (s : State) : Result :=
  if s.init = .ready ∧ 7 < operand id then faultRequest .badCharId s
  else whenReady s fun s => respond .none (setCustomCharOp id [b0, b1, b2, b3, b4, b5, b6, b7] s)

end Sys2Proof.Machine
end

