-- ==== Sys2Proof/Machine/Initialization.lean ====
section
/-! DEFINITION. The initialization handshake: BEGIN and END (41_initialization.md). -/

namespace Sys2Proof.Machine

/-- `bootstrap4_op()`, the 4-bit bootstrap (41_initialization.md rule R101). -/
def bootstrap4Op (s : State) : State :=
  let s := wait .initLong (nib (highNibble fs8) s)
  let s := wait .initShort (nib (highNibble fs8) s)
  let s := wait .initShort (nib (highNibble fs8) s)
  let s := wait .initShort (nib (highNibble fs4) s)
  { s with func := clearBit s.func 4 }

/-- `bootstrap8_op()`, the 8-bit path (41_initialization.md rule R102): no wait follows. -/
def bootstrap8Op (s : State) : State :=
  let s := cmd fs8 s
  { s with func := setBit s.func 4 }

/-- The body of BEGIN for the transport's answer `q` (41_initialization.md rule R100). -/
def beginOp (q : Bool) (s : State) : State :=
  let s := setup { s with init := .negotiating }
  let s := wait .powerOn s
  let s := if q then bootstrap8Op s else bootstrap4Op s
  let s := { s with bus8 := busReport q }
  let s := cmd s.func s
  let s := cmd s.cntl s
  let s := { s with init := .configured }
  let s := { s with tm := .normal }
  let s := displayClearOp s
  let s := displayOnOp s
  let s := backlight true s
  respond (.bool true) { s with init := .ready }

/-- BEGIN (41_initialization.md rule R100). -/
def execBegin (s : State) : Result := whenNotStarted s fun s => beginOp (setupAnswer s) s

/-- END (41_initialization.md rule R103): display off, SHUTDOWN. -/
def execEnd (s : State) : Result :=
  whenReady s fun s => respond (.bool true) { clearBitOp .cntl 2 s with init := .shutdown }

end Sys2Proof.Machine
end

