-- ==== Sys2Proof/Machine/Reserved.lean ====
section
/-! DEFINITION. What the request decoder raises: a reserved opcode and a frame cut short (30_encoding.md rule R73). -/

namespace Sys2Proof.Machine

/-- RESERVED: a frame with a reserved opcode faults with `F_ILLEGAL_REQUEST` in every INIT state (30_encoding.md rule R73,
60_exceptions.md rule R182). -/
def execReserved (_opcode : Byte) (s : State) : Result := faultRequest .illegalRequest s

/-- A frame cut short faults with `F_TRUNCATED_REQUEST` in every INIT state (30_encoding.md rule R73). -/
def truncatedRequest (s : State) : Result := faultRequest .truncatedRequest s

end Sys2Proof.Machine
end

