-- ==== Sys2Proof/Machine/ControllerInstructions.lean ====
section
/-! DEFINITION. The rows CMD, NIB and DATA of the opcode table: the controller instructions, nibbles and data bytes the
engine emits. To the engine such a row is one primitive of 00_scope.md rule R11: its event is appended to the trace of the
request that emits it (rule R12), and no register changes. What the controller does with it is out of scope (rule R7; log entry 11). The
byte is the row's word (30_encoding.md rules R76 to R81); the requests compute theirs from the registers. -/

namespace Sys2Proof.Machine

/-- The byte of a controller instruction, a bootstrap nibble's low half, or a data byte: the row's word. -/
def rowByte (i : Instr) : Byte := (encode i).headD 0x00#8

/-- CLEAR_DISPLAY, `cmd(0x01)` (30_encoding.md rule R76). -/
def execClearDisplay (s : State) : Result := emitInInstructionMode s (cmd (rowByte .clearDisplay))

/-- RETURN_HOME, `cmd(0x02)` (30_encoding.md rule R76). -/
def execReturnHome (s : State) : Result := emitInInstructionMode s (cmd (rowByte .returnHome))

/-- ENTRY_MODE_SET, the byte of a MODE flush (30_encoding.md rule R76). -/
def execEntryModeSet (i sh : BitVec 1) (s : State) : Result := emitInInstructionMode s (cmd (rowByte (.entryModeSet i sh)))

/-- DISPLAY_CONTROL, the byte of a CNTL flush (30_encoding.md rule R76). -/
def execDisplayControl (d c b : BitVec 1) (s : State) : Result :=
  emitInInstructionMode s (cmd (rowByte (.displayControl d c b)))

/-- DISPLAY_SHIFT_LEFT, `cmd(0x18)` (30_encoding.md rule R76, 42_command_encoding.md rule R122). -/
def execDisplayShiftLeft (s : State) : Result := emitInInstructionMode s (cmd (rowByte .displayShiftLeft))

/-- DISPLAY_SHIFT_RIGHT, `cmd(0x1C)` (30_encoding.md rule R76, 42_command_encoding.md rule R123). -/
def execDisplayShiftRight (s : State) : Result := emitInInstructionMode s (cmd (rowByte .displayShiftRight))

/-- FUNCTION_SET, the byte of a FUNC flush (30_encoding.md rule R76). -/
def execFunctionSet (l : BitVec 1) (s : State) : Result := emitInInstructionMode s (cmd (rowByte (.functionSet l)))

/-- FUNCTION_SET_8BIT, `cmd(FS8)` (30_encoding.md rule R80). -/
def execFunctionSet8Bit (s : State) : Result := emitInInstructionMode s (cmd (rowByte .functionSet8Bit))

/-- SET_CGRAM_ADDR (30_encoding.md rule R78). -/
def execSetCgramAddr (a : BitVec 3) (s : State) : Result := emitInInstructionMode s (cmd (rowByte (.setCgramAddr a)))

/-- SET_DDRAM_ADDR (30_encoding.md rule R77). -/
def execSetDdramAddr (a : BitVec 7) (s : State) : Result := emitInInstructionMode s (cmd (rowByte (.setDdramAddr a)))

/-- NIBBLE_FS8, `nib(FS8[7:4])` (30_encoding.md rule R79); `nib` requires no data mode (00_scope.md rule R11). -/
def execNibbleFs8 (s : State) : Result := emitInEitherMode s (nib (lowNibble (rowByte .nibbleFs8)))

/-- NIBBLE_FS4, `nib(FS4[7:4])` (30_encoding.md rule R79); `nib` requires no data mode (00_scope.md rule R11). -/
def execNibbleFs4 (s : State) : Result := emitInEitherMode s (nib (lowNibble (rowByte .nibbleFs4)))

/-- DATA, `dat(d)` (30_encoding.md rule R81). -/
def execData (d : Byte) (s : State) : Result := emitInDataMode s (dat (rowByte (.data d)))

end Sys2Proof.Machine
end

