-- ==== Sys2Proof/Machine/Dispatch.lean ====
section
/-! DEFINITION. The dispatch: one arm per constructor of Instr, each one call of that instruction's meaning. -/

namespace Sys2Proof.Machine

def exec (i : Instr) (s : State) : Host.Outcome State Fault Refusal :=
  match i with
  | .beginReq => Sys2Proof.Machine.execBegin s
  | .endReq => Sys2Proof.Machine.execEnd s
  | .write c => Sys2Proof.Machine.execWrite c s
  | .cursorSet x y => Sys2Proof.Machine.execCursorSet x y s
  | .cursorGet => Sys2Proof.Machine.execCursorGet s
  | .cursorHome => Sys2Proof.Machine.execCursorHome s
  | .displayClear => Sys2Proof.Machine.execDisplayClear s
  | .displayOn => Sys2Proof.Machine.execDisplayOn s
  | .displayOff => Sys2Proof.Machine.execDisplayOff s
  | .backlightOn => Sys2Proof.Machine.execBacklightOn s
  | .backlightOff => Sys2Proof.Machine.execBacklightOff s
  | .cursorUnderlineOn => Sys2Proof.Machine.execCursorUnderlineOn s
  | .cursorUnderlineOff => Sys2Proof.Machine.execCursorUnderlineOff s
  | .cursorBlinkOn => Sys2Proof.Machine.execCursorBlinkOn s
  | .cursorBlinkOff => Sys2Proof.Machine.execCursorBlinkOff s
  | .displayScrollLeft => Sys2Proof.Machine.execDisplayScrollLeft s
  | .displayScrollRight => Sys2Proof.Machine.execDisplayScrollRight s
  | .entryLeftToRight => Sys2Proof.Machine.execEntryLeftToRight s
  | .entryRightToLeft => Sys2Proof.Machine.execEntryRightToLeft s
  | .entryShiftOn => Sys2Proof.Machine.execEntryShiftOn s
  | .entryShiftOff => Sys2Proof.Machine.execEntryShiftOff s
  | .setCustomChar id b0 b1 b2 b3 b4 b5 b6 b7 => Sys2Proof.Machine.execSetCustomChar id b0 b1 b2 b3 b4 b5 b6 b7 s
  | .textNormalMode => Sys2Proof.Machine.execTextNormalMode s
  | .textInvertedMode => Sys2Proof.Machine.execTextInvertedMode s
  | .tabStepGet => Sys2Proof.Machine.execTabStepGet s
  | .tabStepSet step => Sys2Proof.Machine.execTabStepSet step s
  | .reserved opcode => Sys2Proof.Machine.execReserved opcode s
  | .writeBel => Sys2Proof.Machine.execWriteBel s
  | .writeBs => Sys2Proof.Machine.execWriteBs s
  | .writeHt => Sys2Proof.Machine.execWriteHt s
  | .writeLf => Sys2Proof.Machine.execWriteLf s
  | .writeFf => Sys2Proof.Machine.execWriteFf s
  | .writeCr => Sys2Proof.Machine.execWriteCr s
  | .writeCtlOther c => Sys2Proof.Machine.execWriteCtlOther c s
  | .writePrintable c => Sys2Proof.Machine.execWritePrintable c s
  | .clearDisplay => Sys2Proof.Machine.execClearDisplay s
  | .returnHome => Sys2Proof.Machine.execReturnHome s
  | .entryModeSet d sh => Sys2Proof.Machine.execEntryModeSet d sh s
  | .displayControl d c b => Sys2Proof.Machine.execDisplayControl d c b s
  | .displayShiftLeft => Sys2Proof.Machine.execDisplayShiftLeft s
  | .displayShiftRight => Sys2Proof.Machine.execDisplayShiftRight s
  | .functionSet l => Sys2Proof.Machine.execFunctionSet l s
  | .functionSet8Bit => Sys2Proof.Machine.execFunctionSet8Bit s
  | .setCgramAddr a => Sys2Proof.Machine.execSetCgramAddr a s
  | .setDdramAddr a => Sys2Proof.Machine.execSetDdramAddr a s
  | .nibbleFs8 => Sys2Proof.Machine.execNibbleFs8 s
  | .nibbleFs4 => Sys2Proof.Machine.execNibbleFs4 s
  | .data d => Sys2Proof.Machine.execData d s

end Sys2Proof.Machine
end

