-- ==== Sys2Proof/Machine/Fetch.lean ====
section
/-! DEFINITION. Taking the next request: the oldest frame the host has issued, decoded (00_scope.md rule R4, 10_state.md
rule R21). The engine fetches no program; the host hands it frames. -/

namespace Sys2Proof.Machine

/-- The frames left once a request has been read off the front of the oldest one. Bytes after it are the next frame (log
entry 4). -/
def framesAfter (left : List Byte) (frames : List (List Byte)) : List (List Byte) :=
  match left with
  | [] => frames
  | b :: bs => (b :: bs) :: frames

/-- The engine takes the oldest frame of `frame :: frames` and performs its request (00_scope.md rule R4). A decoding fault
comes before admission (60_exceptions.md rule R182). -/
def takeFrame (frame : List Byte) (frames : List (List Byte)) (s : State) : Result :=
  match decode frame with
  | .instr i left => exec i { s with pending := framesAfter left frames }
  | .truncated => truncatedRequest { s with pending := frames }

/-- Record what a completed request showed (70_reset_and_hazards.md rule R212). -/
def recordResult : Result → Result
  | .next s => .next (recordObservation s)
  | .fault r => .fault r
  | .refused r => .refused r

/-- One step: a faulted engine has none (60_exceptions.md rule R181), an engine with no request waits unchanged (log entry
6), and otherwise one request is performed and observed. -/
def takeStep (s : State) : Result :=
  unlessFaulted s
    (match s.pending with
    | [] => .next s
    | frame :: frames => recordResult (takeFrame frame frames s))

/-- The frame at the front of a word, put before the frames the host has issued, so that the next step takes it. -/
def placeWord (s : State) (nbits w : Nat) : State := { s with pending := wordFrame nbits w :: s.pending }

end Sys2Proof.Machine
end

