-- ==== Sys2Proof/Machine/Step.lean ====
section
/-! DEFINITION. One step of the engine, and the placing of a word where the next step takes it. -/

namespace Sys2Proof.Machine

/-- One engine step takes one host request (00_scope.md rule R4). -/
def step (s : State) : Host.Outcome State Fault Refusal := takeStep s

/-- The state with the request of a host's word as the next one to be taken (log entry 9). -/
def State.withFetchWord (s : State) (nbits w : Nat) : State := placeWord s nbits w

end Sys2Proof.Machine
end

