-- ==== Sys2Proof/Machine/Assembler.lean ====
section
/-! DEFINITION. The assembler syntax and the pseudo-instructions (30_encoding.md rules R84, R85). A line is a list of
characters. -/

namespace Sys2Proof.Machine

/-- The pseudo-instructions (30_encoding.md rule R85). -/
inductive Pseudo where
  | print (bytes : List Byte)
  | newline
  | homeCr
  | formfeed
  | tab
  | backspace
  | alert
deriving DecidableEq, Repr

/-- The requests a pseudo-instruction expands to (30_encoding.md rule R85). -/
def expand : Pseudo → List Instr
  | .print bytes => bytes.map .write
  | .newline => [.write 0x0A#8]
  | .homeCr => [.write 0x0D#8]
  | .formfeed => [.write 0x0C#8]
  | .tab => [.write 0x09#8]
  | .backspace => [.write 0x08#8]
  | .alert => [.write 0x07#8]

/-- The mnemonics of the requests and their opcodes (30_encoding.md rule R72). -/
def requestMnemonics : List (String × Byte) :=
  [("BEGIN", 0x01#8), ("END", 0x02#8), ("WRITE", 0x03#8), ("CURSOR_SET", 0x04#8), ("CURSOR_GET", 0x05#8),
   ("CURSOR_HOME", 0x06#8), ("DISPLAY_CLEAR", 0x07#8), ("DISPLAY_ON", 0x08#8), ("DISPLAY_OFF", 0x09#8),
   ("BACKLIGHT_ON", 0x0A#8), ("BACKLIGHT_OFF", 0x0B#8), ("CURSOR_UNDERLINE_ON", 0x0C#8),
   ("CURSOR_UNDERLINE_OFF", 0x0D#8), ("CURSOR_BLINK_ON", 0x0E#8), ("CURSOR_BLINK_OFF", 0x0F#8),
   ("DISPLAY_SCROLL_LEFT", 0x10#8), ("DISPLAY_SCROLL_RIGHT", 0x11#8), ("ENTRY_LEFT_TO_RIGHT", 0x12#8),
   ("ENTRY_RIGHT_TO_LEFT", 0x13#8), ("ENTRY_SHIFT_ON", 0x14#8), ("ENTRY_SHIFT_OFF", 0x15#8),
   ("SET_CUSTOM_CHAR", 0x16#8), ("TEXT_NORMAL_MODE", 0x17#8), ("TEXT_INVERTED_MODE", 0x18#8),
   ("TAB_STEP_GET", 0x19#8), ("TAB_STEP_SET", 0x1A#8)]

/-- The pseudo-instructions that take no text (30_encoding.md rule R85). -/
def pseudoMnemonics : List (String × Pseudo) :=
  [("NEWLINE", .newline), ("HOME_CR", .homeCr), ("FORMFEED", .formfeed), ("TAB", .tab), ("BACKSPACE", .backspace),
   ("ALERT", .alert)]

/-- The entry of a table under a name given by its characters. -/
def lookupName {α : Type} (name : List Char) (table : List (String × α)) : Option α :=
  (table.find? fun row => row.1.toList == name).map Prod.snd

/-- The value of a decimal digit. -/
def decimalDigit (c : Char) : Option Nat :=
  if '0'.toNat ≤ c.toNat ∧ c.toNat ≤ '9'.toNat then some (c.toNat - '0'.toNat) else none

/-- The value of a hexadecimal digit, in either case (log entry 10). -/
def hexDigit (c : Char) : Option Nat :=
  if 'A'.toNat ≤ c.toNat ∧ c.toNat ≤ 'F'.toNat then some (c.toNat - 'A'.toNat + 10)
  else if 'a'.toNat ≤ c.toNat ∧ c.toNat ≤ 'f'.toNat then some (c.toNat - 'a'.toNat + 10)
  else decimalDigit c

/-- The number that the leading digits spell after `acc`, and what follows them. -/
def readDigits (digit : Char → Option Nat) (base : Nat) : Nat → List Char → Nat × List Char
  | acc, [] => (acc, [])
  | acc, c :: cs =>
    match digit c with
    | some d => readDigits digit base (acc * base + d) cs
    | none => (acc, c :: cs)

/-- A number of at least one digit that fits a byte, and what follows it. -/
def readNumber (digit : Char → Option Nat) (base : Nat) : List Char → Option (Byte × List Char)
  | [] => none
  | c :: cs =>
    match digit c with
    | none => none
    | some d =>
      let r := readDigits digit base d cs
      if r.1 < 256 then some (BitVec.ofNat 8 r.1, r.2) else none

/-- A byte operand: a character in single quotes, a `0x` number or a decimal number (30_encoding.md rule R84). A quoted
character is the byte of its code point where that is below 256 (DESIGN CHOICE, log entry 10). -/
def readOperand : List Char → Option (Byte × List Char)
  | '\'' :: c :: '\'' :: rest => if c.toNat < 256 then some (BitVec.ofNat 8 c.toNat, rest) else none
  | '0' :: 'x' :: rest => readNumber hexDigit 16 rest
  | cs => readNumber decimalDigit 10 cs

/-- The text without the spaces at its front. -/
def skipSpaces (cs : List Char) : List Char := cs.dropWhile (· == ' ')

/-- Operands separated by commas; the fuel is at least the number of characters. -/
def readOperands : Nat → List Char → Option (List Byte)
  | 0, _ => none
  | fuel + 1, cs =>
    match readOperand (skipSpaces cs) with
    | none => none
    | some (b, rest) =>
      match skipSpaces rest with
      | [] => some [b]
      | ',' :: more => (readOperands fuel more).map (b :: ·)
      | _ => none

/-- The bytes of a `PRINT` text up to its closing double quote. DESIGN CHOICE (log entry 10): a character is the one byte of
its code point where that is below 256, and no byte otherwise; the first double quote closes the text, so the text holds
none (its byte is written with `WRITE 0x22`). -/
def readText : List Char → Option (List Byte)
  | [] => none
  | '"' :: rest => if skipSpaces rest = [] then some [] else none
  | c :: cs => if c.toNat < 256 then (readText cs).map (BitVec.ofNat 8 c.toNat :: ·) else none

/-- The instruction of a request's opcode and operand bytes, where there are exactly as many as the opcode has. -/
def requestOf (op : Byte) (operands : List Byte) : Option Instr :=
  match decode (op :: operands) with
  | .instr i [] => some i
  | _ => none

/-- One line of assembly: a request, or a pseudo-instruction, as the requests it stands for (30_encoding.md rules R84,
R85). -/
def assemble (line : List Char) : Option (List Instr) :=
  let name := line.takeWhile (· != ' ')
  let text := skipSpaces (line.dropWhile (· != ' '))
  if name = "PRINT".toList then
    match text with
    | '"' :: cs => (readText cs).map fun bytes => expand (.print bytes)
    | _ => none
  else
    match lookupName name pseudoMnemonics with
    | some p => if text = [] then some (expand p) else none
    | none =>
      match lookupName name requestMnemonics with
      | none => none
      | some op =>
        if text = [] then (requestOf op []).map ([·])
        else (readOperands line.length text).bind fun operands => (requestOf op operands).map ([·])

end Sys2Proof.Machine
end

