-- ==== Sys2Proof/Machine/Transport.lean ====
section
/-! DEFINITION. The transport contract, the engine's one output port: which call each event is, what the default calls do,
and which bytes of a trace are instruction bytes and which are data bytes (20_memory.md rules R50 to R53). -/

namespace Sys2Proof.Machine

/-- The operations of the transport contract (20_memory.md rule R50), and the blocking wait. -/
inductive TransportCall where
  | setup
  | writeNibble (v : Nibble)
  | writeByte (v : Byte)
  | writeBuffer (bytes : List Byte)
  | setDataMode (data : Bool)
  | setBacklight (on : Bool)
  | delay (t : Duration)
deriving DecidableEq, Repr

/-- The transport operation of an event (20_memory.md rule R53). None is `write_buffer` (rule R52). -/
def transportCall : Event → TransportCall
  | .setup => .setup
  | .nibble v => .writeNibble v
  | .byte v => .writeByte v
  | .mode .instruction => .setDataMode false
  | .mode .data => .setDataMode true
  | .backlight on => .setBacklight on
  | .wait t => .delay t

/-- The default `write_byte`: two nibble writes, high then low (20_memory.md rules R50, R51). -/
def defaultWriteByte (v : Byte) : List TransportCall := [.writeNibble (highNibble v), .writeNibble (lowNibble v)]

/-- The default `write_buffer`: repeated `write_byte` (20_memory.md rules R50, R52). -/
def defaultWriteBuffer (bytes : List Byte) : List TransportCall := bytes.map .writeByte

/-- The instruction bytes of a trace that begins in data mode `m`: those after a `MODE(0)`, or after none
(20_memory.md rule R53). -/
def instructionBytes : DataMode → List Event → List Byte
  | _, [] => []
  | _, .mode m :: es => instructionBytes m es
  | .instruction, .byte b :: es => b :: instructionBytes .instruction es
  | m, _ :: es => instructionBytes m es

/-- The data bytes of a trace that begins in data mode `m`: those after a `MODE(1)` (20_memory.md rule R53). -/
def dataBytes : DataMode → List Event → List Byte
  | _, [] => []
  | _, .mode m :: es => dataBytes m es
  | .data, .byte b :: es => b :: dataBytes .data es
  | m, _ :: es => dataBytes m es

/-- The data mode a trace leaves the transport in. -/
def modeAfter : DataMode → List Event → DataMode
  | m, [] => m
  | _, .mode m :: es => modeAfter m es
  | m, _ :: es => modeAfter m es

end Sys2Proof.Machine
end

