-- ==== Sys2Proof/Safety.lean ====
section
/-! DEFINITION. The terms claims use: the invariant of the engine between requests, the instruction bytes it may emit, what
the controller is told by a trace, and runs of requests. Nothing here is part of the machine. -/

namespace Sys2Proof.Machine

/-- 10_state.md rule R38, with the read-only geometry and the legal tab steps (rules R28, R29, R31): what holds between any
two requests. -/
structure State.Inv (s : State) : Prop where
  geometry : geometryAdmitted s.w s.h = true
  offset : s.offset = rowOffsets s.w s.h
  dm : s.dm = .instruction
  cy : s.cy < s.h
  cx : s.cx ≤ s.w
  init : s.init = .powerOn ∨ s.init = .ready ∨ s.init = .shutdown
  mode : s.mode ∈ [0x04#8, 0x05#8, 0x06#8, 0x07#8]
  cntl : s.cntl ∈ [0x08#8, 0x09#8, 0x0A#8, 0x0B#8, 0x0C#8, 0x0D#8, 0x0E#8, 0x0F#8]
  func : s.func ∈ [0x28#8, 0x38#8]
  tab : s.tab ≠ 0x00#8

/-- An engine that performs requests: not faulted, READY (60_exceptions.md rules R181, R184). -/
def State.Ready (s : State) : Prop := s.flt = 0x00#8 ∧ s.init = .ready

/-- What 60_exceptions.md rule R184 says of a request that is admitted in READY only and there has this effect: elsewhere it
faults with `F_NOT_READY`, code 0x03, and that alone changes. -/
def ReadyOnly (i : Instr) (effect : State → State) : Prop :=
  ∀ s : State, s.flt = 0x00#8 →
    (s.init = .ready → exec i s = .next (effect s)) ∧
    (s.init ≠ .ready → exec i s = .next { s with flt := 0x03#8, tr := [], response := none })

/-- A request that is admitted in every INIT state and has this effect (60_exceptions.md rule R184). -/
def InEveryState (i : Instr) (effect : State → State) : Prop :=
  ∀ s : State, s.flt = 0x00#8 → exec i s = .next (effect s)

/-- The waits of a trace, in order (60_exceptions.md rule R190). -/
def waits (tr : List Event) : List Duration :=
  tr.filterMap fun e => match e with
    | .wait t => some t
    | _ => none

/-- 30_encoding.md rule R82: the instruction bytes the engine emits, for its geometry. -/
def emittedByte (s : State) (b : Byte) : Prop :=
  b ∈ [0x01#8, 0x02#8, 0x04#8, 0x05#8, 0x06#8, 0x07#8, 0x08#8, 0x09#8, 0x0A#8, 0x0B#8, 0x0C#8, 0x0D#8, 0x0E#8, 0x0F#8,
    0x18#8, 0x1C#8, 0x28#8, 0x38#8, 0x30#8, 0x40#8, 0x48#8, 0x50#8, 0x58#8, 0x60#8, 0x68#8, 0x70#8, 0x78#8] ∨
  ∃ x y, x < s.w ∧ y < s.h ∧ b = 0x80#8 ||| BitVec.ofNat 8 ((s.offset.get y).toNat + x)

/-! What the controller is told: the controller is out of scope (00_scope.md rule R7), and what these terms take from the
spec's passages of general knowledge is in log entry 14. -/

/-- The controller registers that the mirrors stand for (10_state.md rule R26, 20_memory.md rule R65). -/
structure DeviceRegisters where
  mode : Byte
  cntl : Byte
  func : Byte
deriving DecidableEq, Repr

/-- The controller registers after one instruction byte: an entry-mode, display-control or function-set byte replaces its
register, and clear sets the increment bit of the entry mode (10_state.md rule R26; the last from general knowledge, which
the spec marks so in 42_command_encoding.md rule R121). -/
def deviceWrite (d : DeviceRegisters) (b : Byte) : DeviceRegisters :=
  match decodeInstructionByte b with
  | some (.entryModeSet _ _) => { d with mode := b }
  | some (.displayControl _ _ _) => { d with cntl := b }
  | some (.functionSet _) => { d with func := b }
  | some .functionSet8Bit => { d with func := b }
  | some .clearDisplay => { d with mode := d.mode ||| 0x02#8 }
  | _ => d

/-- The engine's mirrors. -/
def mirrors (s : State) : DeviceRegisters := ⟨s.mode, s.cntl, s.func⟩

/-- The address the controller's next data byte goes to, as far as the rules speak of it: the space, the address, whether
it counts up, and the data mode of the transport. -/
structure AddressCounter where
  dm : DataMode
  increment : Bool
  space : AddressSpace
  address : Int
deriving DecidableEq, Repr

/-- The address counter after one event: set by the set-address, clear and home instructions, moved by each data byte
(20_memory.md rules R57, R60; the direction from general knowledge, as 42_command_encoding.md rules R118 and R121 say). -/
def AddressCounter.event (a : AddressCounter) (e : Event) : AddressCounter :=
  match e with
  | .mode m => { a with dm := m }
  | .byte b =>
    match a.dm with
    | .data => { a with address := if a.increment then a.address + 1 else a.address - 1 }
    | .instruction =>
      match decodeInstructionByte b with
      | some (.setDdramAddr d) => { a with space := .ddram, address := d.toNat }
      | some (.setCgramAddr c) => { a with space := .cgram, address := 8 * c.toNat }
      | some .clearDisplay => { a with space := .ddram, address := 0, increment := true }
      | some .returnHome => { a with space := .ddram, address := 0 }
      | some (.entryModeSet i _) => { a with increment := i == 1#1 }
      | _ => a
  | _ => a

/-- Where the data bytes of a trace go, in order: the space, the address, the byte. -/
def addressedWrites : AddressCounter → List Event → List (AddressSpace × Int × Byte)
  | _, [] => []
  | a, .byte b :: es =>
    if a.dm = .data then (a.space, a.address, b) :: addressedWrites (a.event (.byte b)) es
    else addressedWrites (a.event (.byte b)) es
  | a, e :: es => addressedWrites (a.event e) es

/-- The tracked cursor agrees with the controller's address counter (10_state.md rule R27): same data mode, direction and
space, and in DDRAM the address of the cell at the cursor (one past the row's last cell where the line is full). -/
def Follows (s : State) (a : AddressCounter) : Prop :=
  a.dm = s.dm ∧ a.increment = s.mode.getLsbD 1 ∧ a.space = s.acsp ∧
    (s.acsp = .ddram → a.address = (ddramAddr s.offset s.cx s.cy : Int))

/-! Runs. -/

/-- The frames of `PRINT`: one WRITE per byte, in order (30_encoding.md rule R85). -/
def printFrames (bytes : List Byte) : List (List Byte) := (expand (.print bytes)).map encode

/-- The sum of the `count` responses of some requests (44_text_stream.md rule R160). -/
def sumCounts : List Observation → Nat
  | [] => 0
  | o :: os => (match o.response with | .count n => n | _ => 0) + sumCounts os

/-- The whole run as one list of events (20_memory.md rule R61). -/
def wholeTrace (observations : List Observation) : List Event := observations.flatMap Observation.trace

/-- The state of a result that is a next state. -/
def nextState : Result → Option State
  | .next s => some s
  | .fault _ => none
  | .refused _ => none

/-- A run that has ended well: every request returned, no fault (70_reset_and_hazards.md rule R212). -/
def State.successful (s : State) : Bool := s.flt == 0x00#8 && s.pending.isEmpty

/-- Two engines that differ at most in the flags no rule turns into an event or a response: TM, ACSP, BL and BUS8
(10_state.md rules R30, R34, R35, R36). -/
def SameButFlags (s s' : State) : Prop :=
  s' = { s with tm := s'.tm, acsp := s'.acsp, bl := s'.bl, bus8 := s'.bus8 }

end Sys2Proof.Machine
end

