-- ==== Sys2Proof/Certificates/Slice0/Obligations.lean ====
section
/-! DEFINITION. The statements about the engine, each from numbered rules of spec/. A statement that names an instruction
says all that its next state is: a field not written there is unchanged. -/

open Sys2Proof Sys2Proof.Machine

/-! ## Encodings -/

/-- Rules R70, R72, R75, R76 to R81: in its own format, the encoding of a well-formed instruction, followed by any bytes,
decodes to that instruction and leaves those bytes. -/
def Obligations.DecodeOfEncode : Prop :=
  ∀ (i : Instr) (rest : List Byte), i.wellFormed = true → decodeAs i.format (encode i ++ rest) = some (i, rest)

/-- Rules R70, R74, R86: what a decoder reads is well formed, of its format, and exactly the bytes it consumed encode it. -/
def Obligations.EncodeOfDecode : Prop :=
  ∀ (f : Format) (bs rest : List Byte) (i : Instr), decodeAs f bs = some (i, rest) →
    bs = encode i ++ rest ∧ i.wellFormed = true ∧ i.format = f

/-- Rule R72: words written out from the opcode map, one or two for each family, decode to what they stand for. -/
def Obligations.WrittenWordsDecode : Prop :=
  decode [0x01#8] = .instr .beginReq [] ∧
  decode [0x03#8, 0x48#8] = .instr (.write 0x48#8) [] ∧
  decode [0x04#8, 0x05#8, 0x01#8] = .instr (.cursorSet 0x05#8 0x01#8) [] ∧
  decode [0x0D#8] = .instr .cursorUnderlineOff [] ∧
  decode [0x13#8] = .instr .entryRightToLeft [] ∧
  decode [0x16#8, 0x02#8, 0x00#8, 0x0A#8, 0x1F#8, 0x1F#8, 0x0E#8, 0x04#8, 0x00#8, 0x00#8] =
    .instr (.setCustomChar 0x02#8 0x00#8 0x0A#8 0x1F#8 0x1F#8 0x0E#8 0x04#8 0x00#8 0x00#8) [] ∧
  decode [0x1A#8, 0x08#8] = .instr (.tabStepSet 0x08#8) [] ∧
  decode [0x1B#8] = .instr (.reserved 0x1B#8) [] ∧
  decodeAs .txt [0x0A#8] = some (.writeLf, []) ∧
  decodeAs .cmd [0xC5#8] = some (.setDdramAddr 0x45#7, []) ∧
  decodeAs .nib [0x03#8] = some (.nibbleFs8, []) ∧
  decodeAs .data [0x41#8] = some (.data 0x41#8, [])

/-- Rule R73: opcodes 0x00 and 0x1B to 0xFF fault with `F_ILLEGAL_REQUEST` (0x01), a frame that ends before its operand
bytes faults with `F_TRUNCATED_REQUEST` (0x02), whatever INIT is, and every other frame is a request of its own opcode. What
is left in `pending` is the model's (log entries 3 and 4). -/
def Obligations.IllegalAndTruncatedFramesFault : Prop :=
  ∀ (s : State) (op : Byte) (args : List Byte) (frames : List (List Byte)),
    s.flt = 0x00#8 → s.pending = (op :: args) :: frames →
    let operands := if op = 0x03#8 ∨ op = 0x1A#8 then 1 else if op = 0x04#8 then 2 else if op = 0x16#8 then 9 else 0
    ((op = 0x00#8 ∨ 0x1B ≤ op.toNat) →
      exec (.reserved op) s = .next { s with flt := 0x01#8, tr := [], response := none } ∧
      step s = .next { s with flt := 0x01#8, tr := [], response := none, pending := framesAfter args frames }) ∧
    (args.length < operands →
      step s = .next { s with flt := 0x02#8, tr := [], response := none, pending := frames }) ∧
    (0x01 ≤ op.toNat → op.toNat ≤ 0x1A → operands ≤ args.length →
      ∃ i, decode (op :: args) = .instr i (args.drop operands) ∧ i.format = .req ∧ (∀ c, i ≠ .reserved c) ∧
        encode i = op :: args.take operands)

/-! ## Steps -/

/-- Rule R4: when the oldest frame decodes to an instruction, the step is exec of it with that frame taken from the queue
(bytes after the request stay as the next frame, log entry 4), and a completed request's response and trace are added to the
observation (rule R212). -/
def Obligations.StepRunsTheDecodedRequest : Prop :=
  ∀ (s : State) (frame left : List Byte) (frames : List (List Byte)) (i : Instr),
    s.flt = 0x00#8 → s.pending = frame :: frames → decode frame = .instr i left →
    let s' := { s with pending := if left = [] then frames else left :: frames }
    ∃ t, exec i s' = .next t ∧
      (∀ r, t.response = some r → step s = .next { t with observed := t.observed ++ [⟨r, t.tr⟩] }) ∧
      (t.response = none → step s = .next t)

/-- Log entry 6 (the model's choice): an engine that is not faulted and has no frame to take stays as it is. -/
def Obligations.IdleEngineWaits : Prop :=
  ∀ s : State, s.flt = 0x00#8 → s.pending = [] → step s = .next s

/-- Rules R4, R86, R183: no step of an engine that is not faulted ends in the model's outcome 'fault' or 'refused', and no
request does. The next state of a request that faults is the one with FLT written (the model's reading, log entry 12), and
that of a step with no frame to take is the same state (the model's choice, log entry 6). -/
def Obligations.EveryRequestAnswersANextState : Prop :=
  ∀ s : State, s.flt = 0x00#8 →
    (∃ t, step s = .next t) ∧ ∀ i : Instr, i.isRequest = true → ∃ t, exec i s = .next t

/-- Rule R181: a faulting request emits no event, returns no response and writes no register but FLT, which gets its code;
and an engine with FLT ≠ 0 has no further step, so FLT is never cleared. Of a step this says nothing about the frames left:
`AFaultingStepTakesItsFrame` does. -/
def Obligations.FaultsArePreciseAndFinal : Prop :=
  ∀ s : State,
    (s.flt = 0x00#8 → ∀ (i : Instr) (t : State), exec i s = .next t → t.flt ≠ 0x00#8 →
      t = { s with flt := t.flt, tr := [], response := none } ∧
        t.flt ∈ [0x01#8, 0x02#8, 0x03#8, 0x04#8, 0x05#8, 0x06#8]) ∧
    (s.flt = 0x00#8 → ∀ t : State, step s = .next t → t.flt ≠ 0x00#8 →
      t = { s with flt := t.flt, tr := [], response := none, pending := t.pending } ∧
        t.flt ∈ [0x01#8, 0x02#8, 0x03#8, 0x04#8, 0x05#8, 0x06#8]) ∧
    (s.flt ≠ 0x00#8 → step s = .fault (.faulted s.flt) ∧ ∀ i : Instr, exec i s = .fault (.faulted s.flt))

/-- Rule R181, with the model's queue of frames (log entries 3 and 4): a step that faults took the oldest frame, left the
bytes after its request as the next one, and changed FLT, the trace, the response and the queue alone. -/
def Obligations.AFaultingStepTakesItsFrame : Prop :=
  ∀ s t : State, s.flt = 0x00#8 → step s = .next t → t.flt ≠ 0x00#8 →
    ∃ frame frames, s.pending = frame :: frames ∧
      t = { s with
        flt := t.flt, tr := [], response := none
        pending := match decode frame with
          | .instr _ [] => frames
          | .instr _ left => left :: frames
          | .truncated => frames }

/-- Rule R182: decoding faults before admission, admission before operands. The queue left by a frame cut short is the
model's choice (log entry 3), and so is that a frame of no bytes is one (log entry 5). -/
def Obligations.FaultPriority : Prop :=
  ∀ s : State, s.flt = 0x00#8 →
    let faulted (code : Byte) : Result := .next { s with flt := code, tr := [], response := none }
    (∀ op : Byte, exec (.reserved op) s = faulted 0x01#8) ∧
    (∀ id b0 b1 b2 b3 b4 b5 b6 b7 : Byte, 7 < id.toNat →
      exec (.setCustomChar id b0 b1 b2 b3 b4 b5 b6 b7) s = faulted (if s.init = .ready then 0x05#8 else 0x03#8)) ∧
    exec (.tabStepSet 0x00#8) s = faulted 0x06#8 ∧
    ∀ (frame : List Byte) (frames : List (List Byte)), s.pending = frame :: frames → decode frame = .truncated →
      step s = .next { s with flt := 0x02#8, tr := [], response := none, pending := frames }

/-- Rule R184: which requests each INIT state admits, and the admission fault of the others. -/
def Obligations.AdmissionByInit : Prop :=
  ∀ (s : State) (i : Instr), s.flt = 0x00#8 → i.isRequest = true → (∀ op, i ≠ .reserved op) →
    ∃ t, exec i s = .next t ∧
      (t.flt = 0x04#8 ↔ i = .beginReq ∧ s.init ≠ .powerOn ∧ s.init ≠ .shutdown) ∧
      (t.flt = 0x03#8 ↔ s.init ≠ .ready ∧ i ≠ .beginReq ∧ i ≠ .cursorGet ∧ i ≠ .textNormalMode ∧
        i ≠ .textInvertedMode ∧ i ≠ .tabStepGet ∧ ∀ v, i ≠ .tabStepSet v)

/-- Rules R61, R212: a step that takes a frame and does not fault adds exactly its own response and trace to the run, at
the end. -/
def Obligations.EachCompletedRequestIsObserved : Prop :=
  ∀ s t : State, s.pending ≠ [] → step s = .next t → t.flt = 0x00#8 →
    ∃ r, t.response = some r ∧ t.observed = s.observed ++ [⟨r, t.tr⟩] ∧
      wholeTrace t.observed = wholeTrace s.observed ++ t.tr

/-! ## Construction and the invariant -/

/-- Rules R144, R195: construction admits exactly the well-formed geometries, and refuses every other. -/
def Obligations.ConstructionAdmitsWellFormedGeometries : Prop :=
  ∀ w h : Nat,
    let admitted := 1 ≤ h ∧ h ≤ 4 ∧ 1 ≤ w ∧ ∀ y, y < h → ((rowOffsets w h).get y).toNat + w - 1 ≤ 127
    (admitted ↔ (h = 1 ∧ 1 ≤ w ∧ w ≤ 128) ∨ ((h = 2 ∨ h = 3) ∧ 1 ≤ w ∧ w ≤ 64) ∨ (h = 4 ∧ w = 16) ∨
      (h = 4 ∧ w ≠ 16 ∧ 1 ≤ w ∧ w ≤ 44)) ∧
    (admitted → ∃ s, State.construct w h = .next s) ∧
    (¬ admitted → State.construct w h = .refused (.geometryRefused w h))

/-- Rules R141, R201: the registers of an engine just built, and after its first BEGIN with any answer of the transport. -/
def Obligations.ResetValuesAndFirstBegin : Prop :=
  ∀ (w h : Nat) (s : State), State.construct w h = .next s →
    (s.mode = 0x06#8 ∧ s.cntl = 0x08#8 ∧ s.func = 0x28#8 ∧ s.cx = 0 ∧ s.cy = 0 ∧
      s.offset = (if w = 16 ∧ h = 4 then ⟨0#8, 64#8, 16#8, 80#8⟩ else ⟨0#8, 64#8, 20#8, 84#8⟩) ∧
      s.w = w ∧ s.h = h ∧ s.tm = .normal ∧ s.tab = 4#8 ∧ s.init = .powerOn ∧ s.dm = .instruction ∧
      s.bl = .unknown ∧ s.bus8 = .unknown ∧ s.acsp = .ddram ∧ s.flt = 0x00#8 ∧ s.tr = [] ∧ s.observed = []) ∧
    ∀ answers : List Bool,
      let s' := { s with setupAnswers := answers }
      let q := setupAnswer s'
      ∃ t, exec .beginReq s' = .next t ∧
        t.init = .ready ∧ t.func = (if q then 0x38#8 else 0x28#8) ∧ t.cntl = 0x0C#8 ∧ t.mode = 0x06#8 ∧
        t.cx = 0 ∧ t.cy = 0 ∧ t.tm = .normal ∧ t.bl = .on ∧ t.bus8 = (if q then .eightBit else .fourBit) ∧
        t.acsp = .ddram ∧ t.dm = .instruction ∧ t.tab = 4#8 ∧ t.flt = 0x00#8

/-- Rule R38: an engine just built meets the invariant, and so does State.reset (whose geometry is log entry 1's). -/
def Obligations.ConstructedEngineMeetsInv : Prop :=
  (∀ (w h : Nat) (s : State), State.construct w h = .next s → s.Inv) ∧ State.reset.Inv

/-- Rule R38: every step, and every instruction, keeps the invariant, from every state that meets it. -/
def Obligations.EveryStepKeepsInv : Prop :=
  ∀ s t : State, s.Inv → (step s = .next t → t.Inv) ∧ ∀ i : Instr, exec i s = .next t → t.Inv

/-! ## Initialization -/

/-- Rules R100, R105: BEGIN from POWER_ON or SHUTDOWN, for the answer the transport gives, and its fault elsewhere. -/
def Obligations.BeginHandshake : Prop :=
  decode [0x01#8] = .instr .beginReq [] ∧
  ∀ s : State, s.Inv → s.flt = 0x00#8 →
    let q := setupAnswer s
    let func := if q then 0x38#8 else 0x28#8
    let bootstrap : List Event :=
      if q then [.byte 0x30#8]
      else [.nibble 0x3#4, .wait .initLong, .nibble 0x3#4, .wait .initShort, .nibble 0x3#4, .wait .initShort,
        .nibble 0x2#4, .wait .initShort]
    ((s.init = .powerOn ∨ s.init = .shutdown) →
      exec .beginReq s = .next
        { s with
          init := .ready, bus8 := if q then .eightBit else .fourBit, func := func, tm := .normal, cx := 0, cy := 0
          mode := s.mode ||| 0x02#8, acsp := .ddram, cntl := s.cntl ||| 0x04#8, bl := .on
          tr := [.setup, .wait .powerOn] ++ bootstrap ++
            [.byte func, .byte s.cntl, .byte 0x01#8, .wait .longExec, .byte (s.cntl ||| 0x04#8), .backlight true]
          response := some (.bool true), setupAnswers := s.setupAnswers.tail, draws := s.draws + 1 }) ∧
    (s.init = .ready → exec .beginReq s = .next { s with flt := 0x04#8, tr := [], response := none })

/-- Rule R103: END turns the display off and enters SHUTDOWN, in READY only. -/
def Obligations.EndShutsDown : Prop :=
  decode [0x02#8] = .instr .endReq [] ∧
  ReadyOnly .endReq fun s =>
    { s with cntl := s.cntl &&& 0xFB#8, init := .shutdown, tr := [.byte (s.cntl &&& 0xFB#8)], response := some (.bool true) }

/-- Rule R104: only BEGIN and END change INIT, as the table of its transitions says. -/
def Obligations.OnlyBeginAndEndChangeInit : Prop :=
  ∀ (s t : State) (i : Instr), exec i s = .next t →
    t.init = s.init ∨
    (i = .beginReq ∧ (s.init = .powerOn ∨ s.init = .shutdown) ∧ t.init = .ready) ∨
    (i = .endReq ∧ s.init = .ready ∧ t.init = .shutdown)

/-! ## Command encoding -/

/-- Rules R110, R111 to R116: the display-control requests write one bit of CNTL and send the whole mirror byte. -/
def Obligations.DisplayControlRequests : Prop :=
  let toggle (i : Instr) (f : Byte → Byte) : Prop :=
    ReadyOnly i fun s => { s with cntl := f s.cntl, tr := [.byte (f s.cntl)], response := some .none }
  (decode [0x08#8] = .instr .displayOn [] ∧ toggle .displayOn (· ||| 0x04#8)) ∧
  (decode [0x09#8] = .instr .displayOff [] ∧ toggle .displayOff (· &&& 0xFB#8)) ∧
  (decode [0x0C#8] = .instr .cursorUnderlineOn [] ∧ toggle .cursorUnderlineOn (· ||| 0x02#8)) ∧
  (decode [0x0D#8] = .instr .cursorUnderlineOff [] ∧ toggle .cursorUnderlineOff (· &&& 0xFD#8)) ∧
  (decode [0x0E#8] = .instr .cursorBlinkOn [] ∧ toggle .cursorBlinkOn (· ||| 0x01#8)) ∧
  (decode [0x0F#8] = .instr .cursorBlinkOff [] ∧ toggle .cursorBlinkOff (· &&& 0xFE#8))

/-- Rules R110, R117 to R120: the entry-mode requests write one bit of MODE and send the whole mirror byte. -/
def Obligations.EntryModeRequests : Prop :=
  let toggle (i : Instr) (f : Byte → Byte) : Prop :=
    ReadyOnly i fun s => { s with mode := f s.mode, tr := [.byte (f s.mode)], response := some .none }
  (decode [0x12#8] = .instr .entryLeftToRight [] ∧ toggle .entryLeftToRight (· ||| 0x02#8)) ∧
  (decode [0x13#8] = .instr .entryRightToLeft [] ∧ toggle .entryRightToLeft (· &&& 0xFD#8)) ∧
  (decode [0x14#8] = .instr .entryShiftOn [] ∧ toggle .entryShiftOn (· ||| 0x01#8)) ∧
  (decode [0x15#8] = .instr .entryShiftOff [] ∧ toggle .entryShiftOff (· &&& 0xFE#8))

/-- Rules R121, R154: DISPLAY_CLEAR, and the form feed byte, which differs from it in its response alone. -/
def Obligations.ClearHomesAndSetsIncrement : Prop :=
  let cleared (r : Response) (s : State) : State :=
    { s with
      cx := 0, cy := 0, mode := s.mode ||| 0x02#8, acsp := .ddram
      tr := [.byte 0x01#8, .wait .longExec], response := some r }
  decode [0x07#8] = .instr .displayClear [] ∧ ReadyOnly .displayClear (cleared .none) ∧
  ReadyOnly .writeFf (cleared (.count 1))

/-- Rules R122, R123: the scroll requests send one byte and write no register. -/
def Obligations.ScrollRequests : Prop :=
  (decode [0x10#8] = .instr .displayScrollLeft [] ∧
    ReadyOnly .displayScrollLeft fun s => { s with tr := [.byte 0x18#8], response := some .none }) ∧
  (decode [0x11#8] = .instr .displayScrollRight [] ∧
    ReadyOnly .displayScrollRight fun s => { s with tr := [.byte 0x1C#8], response := some .none })

/-- Rules R124, R125: the text mode requests write TM, emit nothing, and are admitted in every INIT state. -/
def Obligations.TextModeRequests : Prop :=
  (decode [0x17#8] = .instr .textNormalMode [] ∧
    InEveryState .textNormalMode fun s => { s with tm := .normal, tr := [], response := some .none }) ∧
  (decode [0x18#8] = .instr .textInvertedMode [] ∧
    InEveryState .textInvertedMode fun s => { s with tm := .inverted, tr := [], response := some .none })

/-- Rules R126, R127: the backlight requests emit one BACKLIGHT event and record it in BL. -/
def Obligations.BacklightRequests : Prop :=
  (decode [0x0A#8] = .instr .backlightOn [] ∧
    ReadyOnly .backlightOn fun s => { s with bl := .on, tr := [.backlight true], response := some .none }) ∧
  (decode [0x0B#8] = .instr .backlightOff [] ∧
    ReadyOnly .backlightOff fun s => { s with bl := .off, tr := [.backlight false], response := some .none })

/-- Rules R128, R129: the tab step is read and written in every INIT state, and a step of 0 faults and is not written. -/
def Obligations.TabStepRequests : Prop :=
  (decode [0x19#8] = .instr .tabStepGet [] ∧
    InEveryState .tabStepGet fun s => { s with tr := [], response := some (.step s.tab) }) ∧
  ∀ v : Byte, decode [0x1A#8, v] = .instr (.tabStepSet v) [] ∧
    InEveryState (.tabStepSet v) fun s =>
      if v = 0x00#8 then { s with flt := 0x06#8, tr := [], response := none }
      else { s with tab := v, tr := [], response := some .none }

/-! ## Address translation and the cursor -/

/-- Rules R77, R140, R142: CURSOR_SET goes to the cell where it is in range and to (0, 0) otherwise, and in both cases sends
the cell's DDRAM address; so does the internal operation, for every pair of integers. -/
def Obligations.CursorSetRequest : Prop :=
  ∀ x y : Byte, decode [0x04#8, x, y] = .instr (.cursorSet x y) [] ∧
    ∀ s : State, s.Inv →
      (∀ a b : Int,
        let inside := 0 ≤ a ∧ a < s.w ∧ 0 ≤ b ∧ b < s.h
        let column := if inside then a.toNat else 0
        let row := if inside then b.toNat else 0
        cursorSetOp a b s =
          { s with
            cx := column, cy := row, acsp := .ddram
            tr := s.tr ++ [.byte (0x80#8 ||| BitVec.ofNat 8 ((s.offset.get row).toNat + column))] }) ∧
      (s.flt = 0x00#8 → s.init ≠ .ready → exec (.cursorSet x y) s = .next { s with flt := 0x03#8, tr := [], response := none }) ∧
      (s.flt = 0x00#8 → s.init = .ready → x.toNat < s.w → y.toNat < s.h →
        (s.offset.get y.toNat).toNat + x.toNat ≤ 127 ∧
        exec (.cursorSet x y) s = .next
          { s with
            cx := x.toNat, cy := y.toNat, acsp := .ddram, response := some .none
            tr := [.byte (0x80#8 ||| BitVec.ofNat 8 ((s.offset.get y.toNat).toNat + x.toNat))] }) ∧
      (s.flt = 0x00#8 → s.init = .ready → (s.w ≤ x.toNat ∨ s.h ≤ y.toNat) →
        exec (.cursorSet x y) s = .next
          { s with cx := 0, cy := 0, acsp := .ddram, response := some .none, tr := [.byte 0x80#8] })

/-- Rule R143: CURSOR_GET answers the tracked position in every INIT state. Rule R145: CURSOR_HOME. -/
def Obligations.CursorGetAndHome : Prop :=
  (decode [0x05#8] = .instr .cursorGet [] ∧
    InEveryState .cursorGet fun s => { s with tr := [], response := some (.pos s.cx s.cy) }) ∧
  (decode [0x06#8] = .instr .cursorHome [] ∧
    ReadyOnly .cursorHome fun s =>
      { s with cx := 0, cy := 0, acsp := .ddram, tr := [.byte 0x02#8, .wait .longExec], response := some .none })

/-- Rule R146: the cursor laws. -/
def Obligations.CursorLaws : Prop :=
  (∀ (s : State) (x y : Byte), s.Inv → s.Ready →
    ∃ t u, exec (.cursorSet x y) s = .next t ∧ exec .cursorGet t = .next u ∧
      (x.toNat < s.w ∧ y.toNat < s.h →
        u.response = some (.pos x.toNat y.toNat) ∧
        t.tr = [.byte (0x80#8 ||| BitVec.ofNat 8 ((s.offset.get y.toNat).toNat + x.toNat))]) ∧
      (s.w ≤ x.toNat ∨ s.h ≤ y.toNat → u.response = some (.pos 0 0) ∧ t.tr = [.byte 0x80#8])) ∧
  ∀ (s : State) (x y : Int), ∃ e, (cursorSetOp x y s).tr = s.tr ++ [e]

/-! ## The text stream -/

/-- Rules R75, R150: WRITE performs the rule of its byte's class, and returns 1 for every class but CTL_OTHER. -/
def Obligations.WriteRunsItsClass : Prop :=
  ∀ (c : Byte) (s : State),
    decode [0x03#8, c] = .instr (.write c) [] ∧
    (c = 0x07#8 → exec (.write c) s = exec .writeBel s) ∧
    (c = 0x08#8 → exec (.write c) s = exec .writeBs s) ∧
    (c = 0x09#8 → exec (.write c) s = exec .writeHt s) ∧
    (c = 0x0A#8 → exec (.write c) s = exec .writeLf s) ∧
    (c = 0x0C#8 → exec (.write c) s = exec .writeFf s) ∧
    (c = 0x0D#8 → exec (.write c) s = exec .writeCr s) ∧
    (c.toNat ≤ 0x06 ∨ c = 0x0B#8 ∨ (0x0E ≤ c.toNat ∧ c.toNat ≤ 0x1F) →
      exec (.write c) s = exec (.writeCtlOther c) s) ∧
    (0x20 ≤ c.toNat → exec (.write c) s = exec (.writePrintable c) s) ∧
    (s.Ready → ∃ t, exec (.write c) s = .next t ∧ t.flt = 0x00#8 ∧
      t.response = some (.count (if streamClass c = .ctlOther then 0 else 1))) ∧
    (s.flt = 0x00#8 → s.init ≠ .ready →
      exec (.write c) s = .next { s with flt := 0x03#8, tr := [], response := none })

/-- Rules R151, R156: BEL inverts TM and emits nothing, and every other control code does nothing and returns 0. -/
def Obligations.BelAndUnhandledCodes : Prop :=
  (ReadyOnly .writeBel fun s =>
    { s with tm := if s.tm = .normal then .inverted else .normal, tr := [], response := some (.count 1) }) ∧
  ∀ c : Byte, ReadyOnly (.writeCtlOther c) fun s => { s with tr := [], response := some (.count 0) }

/-- Rule R152: backspace moves left (from column 0 of any row to (0, 0)), writes a space, and moves back. -/
def Obligations.BackspaceErasesOneCell : Prop :=
  ∀ s : State, s.Inv → s.Ready →
    let x := s.cx - 1
    let y := if s.cx = 0 then 0 else s.cy
    let address : Event := .byte (0x80#8 ||| BitVec.ofNat 8 ((s.offset.get y).toNat + x))
    exec .writeBs s = .next
      { s with
        cx := x, cy := y, acsp := .ddram, response := some (.count 1)
        tr := [address, .mode .data, .byte 0x20#8, .mode .instruction, address] }

/-- Rule R153: a tab goes to the next multiple of the tab step on the same row, or to (0, 0) where that is at or past the
width. -/
def Obligations.TabMovesToTheNextStop : Prop :=
  ∀ s : State, s.Inv → s.Ready →
    let nx := s.cx + s.tab.toNat - s.cx % s.tab.toNat
    let x := if nx < s.w then nx else 0
    let y := if nx < s.w then s.cy else 0
    exec .writeHt s = .next
      { s with
        cx := x, cy := y, acsp := .ddram, response := some (.count 1)
        tr := [.byte (0x80#8 ||| BitVec.ofNat 8 ((s.offset.get y).toNat + x))] }

/-- Rule R155: carriage return goes to the start of the same row. -/
def Obligations.CarriageReturnKeepsTheRow : Prop :=
  ∀ s : State, s.Inv → s.Ready →
    exec .writeCr s = .next
      { s with
        cx := 0, acsp := .ddram, response := some (.count 1), tr := [.byte (0x80#8 ||| s.offset.get s.cy)] }

/-- Rule R157: line feed goes to the next row (row 0 after the last), blanks it with `W` spaces, and stands at its start. -/
def Obligations.LineFeedBlanksTheNextRow : Prop :=
  ∀ s : State, s.Inv → s.Ready →
    let y := if s.cy + 1 < s.h then s.cy + 1 else 0
    let address : Event := .byte (0x80#8 ||| s.offset.get y)
    exec .writeLf s = .next
      { s with
        cx := 0, cy := y, acsp := .ddram, response := some (.count 1)
        tr := [address, .mode .data] ++ List.replicate s.w (.byte 0x20#8) ++ [.mode .instruction, address] }

/-- Rule R158: a printable byte is sent unchanged in data mode and the column advances by one; on a full line the line feed
of rule R157 comes first. -/
def Obligations.PrintableByteAdvances : Prop :=
  ∀ (c : Byte) (s : State), s.Inv → s.Ready →
    let y := if s.cy + 1 < s.h then s.cy + 1 else 0
    let address : Event := .byte (0x80#8 ||| s.offset.get y)
    (s.cx < s.w → exec (.writePrintable c) s = .next
      { s with cx := s.cx + 1, response := some (.count 1), tr := [.mode .data, .byte c, .mode .instruction] }) ∧
    (s.cx = s.w → exec (.writePrintable c) s = .next
      { s with
        cx := 1, cy := y, acsp := .ddram, response := some (.count 1)
        tr := [address, .mode .data] ++ List.replicate s.w (.byte 0x20#8) ++ [.mode .instruction, address] ++
          [.mode .data, .byte c, .mode .instruction] })

/-- Rules R150, R184: WRITE of any class faults with `F_NOT_READY` outside READY, and changes FLT alone. -/
def Obligations.TextNeedsReady : Prop :=
  ∀ (s : State) (i : Instr), s.flt = 0x00#8 → s.init ≠ .ready → i.format = .txt →
    exec i s = .next { s with flt := 0x03#8, tr := [], response := none }

/-- Rule R160: a text written byte by byte is taken whole, and the responses add up to the number of its bytes that are not
CTL_OTHER. -/
def Obligations.PrintCountsHandledBytes : Prop :=
  ∀ (bytes : List Byte) (s : State), s.Inv → s.Ready → s.pending = printFrames bytes →
    ∃ t new, Host.Core.run core bytes.length s = .next t ∧ t.pending = [] ∧ t.flt = 0x00#8 ∧
      t.observed = s.observed ++ new ∧ new.length = bytes.length ∧
      sumCounts new = bytes.countP fun c => streamClass c != .ctlOther

/-- Rules R27, R160: `W` printable bytes from the start of a row that is not the last fill it, and one more stands at column
1 of the next row. -/
def Obligations.FullLineThenWrap : Prop :=
  ∀ (bytes : List Byte) (c : Byte) (s : State), s.Inv → s.Ready → s.cx = 0 → s.cy + 1 < s.h →
    bytes.length = s.w → (∀ b ∈ bytes, 0x20 ≤ b.toNat) → 0x20 ≤ c.toNat → s.pending = printFrames (bytes ++ [c]) →
    ∃ t u, Host.Core.run core s.w s = .next t ∧ t.cx = s.w ∧ t.cy = s.cy ∧
      step t = .next u ∧ u.cx = 1 ∧ u.cy = s.cy + 1

/-! ## Custom characters -/

/-- Rules R78, R170: SET_CUSTOM_CHAR selects the slot `id << 3` and sends the eight bitmap bytes unchanged, in order. -/
def Obligations.SetCustomCharRequest : Prop :=
  ∀ id b0 b1 b2 b3 b4 b5 b6 b7 : Byte,
    let i := Instr.setCustomChar id b0 b1 b2 b3 b4 b5 b6 b7
    decode [0x16#8, id, b0, b1, b2, b3, b4, b5, b6, b7] = .instr i [] ∧
    ∀ s : State, s.flt = 0x00#8 →
      (s.init ≠ .ready → exec i s = .next { s with flt := 0x03#8, tr := [], response := none }) ∧
      (s.init = .ready → 7 < id.toNat → exec i s = .next { s with flt := 0x05#8, tr := [], response := none }) ∧
      (s.init = .ready → id.toNat ≤ 7 → exec i s = .next
        { s with
          dm := .instruction, acsp := .cgram, response := some .none
          tr := [.byte (0x40#8 ||| BitVec.ofNat 8 (8 * id.toNat)), .mode .data, .byte b0, .byte b1, .byte b2, .byte b3,
            .byte b4, .byte b5, .byte b6, .byte b7, .mode .instruction] })

/-- Rule R171, read by the address counter of log entry 14 (PRESUMED, and it does not wrap: the model's reading of the
controller): the trace of SET_CUSTOM_CHAR writes byte `b_i` to CGRAM address `8·id + i` where the counter counts up, to
`8·id - i` where it counts down, and nothing else. -/
def Obligations.GlyphBytesFillTheirSlot : Prop :=
  ∀ (id b0 b1 b2 b3 b4 b5 b6 b7 : Byte) (s : State) (a : AddressCounter),
    s.Ready → id.toNat ≤ 7 → a.dm = .instruction →
    ∃ t, exec (.setCustomChar id b0 b1 b2 b3 b4 b5 b6 b7) s = .next t ∧
      addressedWrites a t.tr =
        ([b0, b1, b2, b3, b4, b5, b6, b7].zipIdx).map fun p =>
          (AddressSpace.cgram, (8 * id.toNat : Int) + (if a.increment then (p.2 : Int) else -(p.2 : Int)), p.1)

/-- Rule R172: no WRITE sends a custom identity as a data byte. -/
def Obligations.IdentitiesAreNeverShown : Prop :=
  ∀ (s t : State) (c : Byte), c.toNat ≤ 7 → exec (.write c) s = .next t → t.tr = []

/-! ## The controller instructions, nibbles and data bytes the engine emits -/

/-- Rules R11, R76, R79 to R81: emitting a row of the table appends its one event, with the row's bits, and changes nothing
else (log entry 11). A nibble requires no data mode; an instruction or a data byte does, and in the other mode the model
refuses (log entry 7). -/
def Obligations.EmittedRowsAppendOneEvent : Prop :=
  ∀ s : State, s.flt = 0x00#8 →
    let row (m : DataMode) (r : Refusal) (i : Instr) (e : Event) : Prop :=
      (s.dm = m → exec i s = .next { s with tr := s.tr ++ [e] }) ∧ (s.dm ≠ m → exec i s = .refused r)
    let command (i : Instr) (b : Byte) : Prop := row .instruction .needsInstructionMode i (.byte b)
    command .clearDisplay 0b00000001#8 ∧ command .returnHome 0b00000010#8 ∧
    (∀ i sh : BitVec 1, command (.entryModeSet i sh) (0b000001#6 ++ i ++ sh)) ∧
    (∀ d c b : BitVec 1, command (.displayControl d c b) (0b00001#5 ++ d ++ c ++ b)) ∧
    command .displayShiftLeft 0b00011000#8 ∧ command .displayShiftRight 0b00011100#8 ∧
    (∀ l : BitVec 1, command (.functionSet l) (0b001#3 ++ l ++ 0b1000#4)) ∧
    command .functionSet8Bit 0b00110000#8 ∧
    (∀ a : BitVec 3, command (.setCgramAddr a) (0b01#2 ++ a ++ 0b000#3)) ∧
    (∀ a : BitVec 7, command (.setDdramAddr a) (0b1#1 ++ a)) ∧
    exec .nibbleFs8 s = .next { s with tr := s.tr ++ [.nibble 0b0011#4] } ∧
    exec .nibbleFs4 s = .next { s with tr := s.tr ++ [.nibble 0b0010#4] } ∧
    ∀ d : Byte, row .data .needsDataMode (.data d) (.byte d)

/-- Rule R82: every instruction byte a request emits is of the emitted set, and every nibble is 0x3 or 0x2. -/
def Obligations.OnlyTheEmittedSetIsSent : Prop :=
  ∀ (s t : State) (i : Instr), s.Inv → i.isRequest = true → exec i s = .next t →
    (∀ b ∈ instructionBytes s.dm t.tr, emittedByte s b) ∧ ∀ v, Event.nibble v ∈ t.tr → v = 0x3#4 ∨ v = 0x2#4

/-- Rules R33, R53: DM is the data mode the trace leaves the transport in, and a request that begins in instruction mode
ends in it. -/
def Obligations.RequestsEndInInstructionMode : Prop :=
  ∀ (s t : State) (i : Instr), i.isRequest = true → exec i s = .next t →
    t.dm = modeAfter s.dm t.tr ∧ (s.dm = .instruction → t.dm = .instruction)

/-- Rule R190: the waits of each request, in order: the waits of the handshake, one long wait after a clear or a home, and
no other. -/
def Obligations.WaitsAreWhereTheyAreNamed : Prop :=
  ∀ (s t : State) (i : Instr), i.isRequest = true → exec i s = .next t → t.flt = 0x00#8 →
    waits t.tr =
      if i = .beginReq then
        .powerOn :: (if setupAnswer s then [] else [.initLong, .initShort, .initShort, .initShort]) ++ [.longExec]
      else if i ∈ [.displayClear, .cursorHome, .writeFf, .write 0x0C#8] then [.longExec]
      else []

/-! ## Whole-machine rules -/

/-- Rules R26, R65, read by the controller registers of log entry 14 (PRESUMED: a byte replaces its register, and a clear
sets the entry-mode register to increment): after any request the mirrors are what the instruction bytes it sent left in
them. -/
def Obligations.MirrorsEqualTheDeviceRegisters : Prop :=
  ∀ (s t : State) (i : Instr), s.Inv → i.isRequest = true → exec i s = .next t →
    mirrors t = (instructionBytes s.dm t.tr).foldl deviceWrite (mirrors s)

/-- Rules R27, R209, read by the address counter of log entry 14 (PRESUMED, an integer that does not wrap: the model's
reading of the controller): while MODE = 0x06, a cursor that agrees with that counter before a request agrees with it
after. -/
def Obligations.CursorFollowsTheAddressCounter : Prop :=
  ∀ (s t : State) (i : Instr) (a : AddressCounter), s.Inv → s.mode = 0x06#8 → i.isRequest = true →
    exec i s = .next t → Follows s a → Follows t (t.tr.foldl AddressCounter.event a)

/-- Rule R27: only a printable byte makes the line full: a request after which CX = W left the cursor where it was, or wrote a
printable byte. -/
def Obligations.OnlyAPrintableByteFillsTheLine : Prop :=
  ∀ (s t : State) (i : Instr), s.Inv → exec i s = .next t → t.cx = t.w →
    (t.cx = s.cx ∧ t.cy = s.cy) ∨ ∃ c : Byte, i = .writePrintable c ∨ (i = .write c ∧ 0x20 ≤ c.toNat)

/-- Rules R30, R34, R35, R36: TM, ACSP, BL and BUS8 change no event and no response: two engines that differ only in them
answer every instruction alike, and still differ only in them. -/
def Obligations.ShadowFlagsAreNeverSeen : Prop :=
  ∀ (s s' t : State) (i : Instr), SameButFlags s s' → exec i s = .next t →
    ∃ t', exec i s' = .next t' ∧ SameButFlags t t' ∧ t'.tr = t.tr ∧ t'.response = t.response

/-- Rule R22, with the writers each register's own rule names: an instruction changes a register only where it is one of
that register's writers (FLT: a request that faults, which changes nothing else), and never the geometry or its table. -/
def Obligations.RegistersHaveOnlyTheirWriters : Prop :=
  ∀ (s t : State) (i : Instr), s.Inv → exec i s = .next t →
    let moves := i ∈ [.beginReq, .displayClear, .cursorHome, .writeBs, .writeHt, .writeLf, .writeFf, .writeCr] ∨
      (∃ x y, i = .cursorSet x y) ∨ (∃ c, i = .writePrintable c) ∨
      ∃ c, i = .write c ∧ streamClass c ∉ [.bel, .ctlOther]
    (t.w = s.w ∧ t.h = s.h ∧ t.offset = s.offset ∧ t.dm = s.dm ∧ t.pending = s.pending ∧ t.observed = s.observed) ∧
    (t.mode ≠ s.mode → i ∈ [.beginReq, .displayClear, .entryLeftToRight, .entryRightToLeft, .entryShiftOn, .entryShiftOff,
      .writeFf, .write 0x0C#8]) ∧
    (t.cntl ≠ s.cntl → i ∈ [.beginReq, .endReq, .displayOn, .displayOff, .cursorUnderlineOn, .cursorUnderlineOff,
      .cursorBlinkOn, .cursorBlinkOff]) ∧
    (t.init ≠ s.init → i = .beginReq ∨ i = .endReq) ∧
    (t.flt ≠ s.flt → i.isRequest = true ∧ t = { s with flt := t.flt, tr := [], response := none }) ∧
    (t.func ≠ s.func ∨ t.bus8 ≠ s.bus8 ∨ t.setupAnswers ≠ s.setupAnswers ∨ t.draws ≠ s.draws → i = .beginReq) ∧
    (t.tm ≠ s.tm → i ∈ [.beginReq, .textNormalMode, .textInvertedMode, .writeBel, .write 0x07#8]) ∧
    (t.tab ≠ s.tab → ∃ v, i = .tabStepSet v) ∧
    (t.bl ≠ s.bl → i ∈ [.beginReq, .backlightOn, .backlightOff]) ∧
    (t.cx ≠ s.cx ∨ t.cy ≠ s.cy → moves) ∧
    (t.acsp ≠ s.acsp → moves ∨ ∃ id b0 b1 b2 b3 b4 b5 b6 b7, i = .setCustomChar id b0 b1 b2 b3 b4 b5 b6 b7)

/-- Rule R71: the type of each request's response depends on the request alone, and its byte form has 0, 1 or 2 bytes from
which the value can be read back. -/
def Obligations.ResponsesHaveTheirTypes : Prop :=
  ∀ (s t : State) (i : Instr), s.Inv → i.isRequest = true → exec i s = .next t → t.flt = 0x00#8 →
    (i = .beginReq ∨ i = .endReq → t.response = some (.bool true) ∧ (Response.bool true).bytes = [0x01#8]) ∧
    (i.format = .txt ∨ (∃ c, i = .write c) →
      ∃ n, n ≤ 1 ∧ t.response = some (.count n) ∧ (Response.count n).bytes = [BitVec.ofNat 8 n]) ∧
    (i = .cursorGet → ∃ x y : Byte, t.response = some (.pos x.toNat y.toNat) ∧ (Response.pos x.toNat y.toNat).bytes = [x, y]) ∧
    (i = .tabStepGet → ∃ v : Byte, v ≠ 0x00#8 ∧ t.response = some (.step v) ∧ (Response.step v).bytes = [v]) ∧
    (i ∉ [.beginReq, .endReq, .cursorGet, .tabStepGet] → i.format = .req → (∀ c, i ≠ .write c) →
      t.response = some .none ∧ Response.none.bytes = [])
end

