-- ==== Sys2Proof/Laws/State.lean ====
section
/-! SUPPORT. For each update of the state, what it makes of each field: true by unfolding once, so that later proofs do not
unfold a record update. -/

namespace Sys2Proof.Machine

@[simp] theorem cmd_eq_emit (b : Byte) (s : State) : cmd b s = emit (.byte b) s := rfl
@[simp] theorem dat_eq_emit (b : Byte) (s : State) : dat b s = emit (.byte b) s := rfl
@[simp] theorem nib_eq_emit (v : Nibble) (s : State) : nib v s = emit (.nibble v) s := rfl
@[simp] theorem wait_eq_emit (t : Duration) (s : State) : wait t s = emit (.wait t) s := rfl

/-! `emit` -/

@[simp] theorem emit_mode (e : Event) (s : State) : (emit e s).mode = s.mode := rfl
@[simp] theorem emit_cntl (e : Event) (s : State) : (emit e s).cntl = s.cntl := rfl
@[simp] theorem emit_func (e : Event) (s : State) : (emit e s).func = s.func := rfl
@[simp] theorem emit_cx (e : Event) (s : State) : (emit e s).cx = s.cx := rfl
@[simp] theorem emit_cy (e : Event) (s : State) : (emit e s).cy = s.cy := rfl
@[simp] theorem emit_offset (e : Event) (s : State) : (emit e s).offset = s.offset := rfl
@[simp] theorem emit_w (e : Event) (s : State) : (emit e s).w = s.w := rfl
@[simp] theorem emit_h (e : Event) (s : State) : (emit e s).h = s.h := rfl
@[simp] theorem emit_tm (e : Event) (s : State) : (emit e s).tm = s.tm := rfl
@[simp] theorem emit_tab (e : Event) (s : State) : (emit e s).tab = s.tab := rfl
@[simp] theorem emit_init (e : Event) (s : State) : (emit e s).init = s.init := rfl
@[simp] theorem emit_dm (e : Event) (s : State) : (emit e s).dm = s.dm := rfl
@[simp] theorem emit_bl (e : Event) (s : State) : (emit e s).bl = s.bl := rfl
@[simp] theorem emit_bus8 (e : Event) (s : State) : (emit e s).bus8 = s.bus8 := rfl
@[simp] theorem emit_acsp (e : Event) (s : State) : (emit e s).acsp = s.acsp := rfl
@[simp] theorem emit_flt (e : Event) (s : State) : (emit e s).flt = s.flt := rfl
@[simp] theorem emit_tr (e : Event) (s : State) : (emit e s).tr = s.tr ++ [e] := rfl
@[simp] theorem emit_response (e : Event) (s : State) : (emit e s).response = s.response := rfl
@[simp] theorem emit_observed (e : Event) (s : State) : (emit e s).observed = s.observed := rfl
@[simp] theorem emit_pending (e : Event) (s : State) : (emit e s).pending = s.pending := rfl
@[simp] theorem emit_setupAnswers (e : Event) (s : State) : (emit e s).setupAnswers = s.setupAnswers := rfl
@[simp] theorem emit_draws (e : Event) (s : State) : (emit e s).draws = s.draws := rfl

/-! `startRequest` -/

@[simp] theorem startRequest_mode (s : State) : (startRequest s).mode = s.mode := rfl
@[simp] theorem startRequest_cntl (s : State) : (startRequest s).cntl = s.cntl := rfl
@[simp] theorem startRequest_func (s : State) : (startRequest s).func = s.func := rfl
@[simp] theorem startRequest_cx (s : State) : (startRequest s).cx = s.cx := rfl
@[simp] theorem startRequest_cy (s : State) : (startRequest s).cy = s.cy := rfl
@[simp] theorem startRequest_offset (s : State) : (startRequest s).offset = s.offset := rfl
@[simp] theorem startRequest_w (s : State) : (startRequest s).w = s.w := rfl
@[simp] theorem startRequest_h (s : State) : (startRequest s).h = s.h := rfl
@[simp] theorem startRequest_tm (s : State) : (startRequest s).tm = s.tm := rfl
@[simp] theorem startRequest_tab (s : State) : (startRequest s).tab = s.tab := rfl
@[simp] theorem startRequest_init (s : State) : (startRequest s).init = s.init := rfl
@[simp] theorem startRequest_dm (s : State) : (startRequest s).dm = s.dm := rfl
@[simp] theorem startRequest_bl (s : State) : (startRequest s).bl = s.bl := rfl
@[simp] theorem startRequest_bus8 (s : State) : (startRequest s).bus8 = s.bus8 := rfl
@[simp] theorem startRequest_acsp (s : State) : (startRequest s).acsp = s.acsp := rfl
@[simp] theorem startRequest_flt (s : State) : (startRequest s).flt = s.flt := rfl
@[simp] theorem startRequest_tr (s : State) : (startRequest s).tr = [] := rfl
@[simp] theorem startRequest_response (s : State) : (startRequest s).response = none := rfl
@[simp] theorem startRequest_observed (s : State) : (startRequest s).observed = s.observed := rfl
@[simp] theorem startRequest_pending (s : State) : (startRequest s).pending = s.pending := rfl
@[simp] theorem startRequest_setupAnswers (s : State) : (startRequest s).setupAnswers = s.setupAnswers := rfl
@[simp] theorem startRequest_draws (s : State) : (startRequest s).draws = s.draws := rfl

/-! `respond` -/

@[simp] theorem respond_mode (r : Response) (s : State) : (respond r s).mode = s.mode := rfl
@[simp] theorem respond_cntl (r : Response) (s : State) : (respond r s).cntl = s.cntl := rfl
@[simp] theorem respond_func (r : Response) (s : State) : (respond r s).func = s.func := rfl
@[simp] theorem respond_cx (r : Response) (s : State) : (respond r s).cx = s.cx := rfl
@[simp] theorem respond_cy (r : Response) (s : State) : (respond r s).cy = s.cy := rfl
@[simp] theorem respond_offset (r : Response) (s : State) : (respond r s).offset = s.offset := rfl
@[simp] theorem respond_w (r : Response) (s : State) : (respond r s).w = s.w := rfl
@[simp] theorem respond_h (r : Response) (s : State) : (respond r s).h = s.h := rfl
@[simp] theorem respond_tm (r : Response) (s : State) : (respond r s).tm = s.tm := rfl
@[simp] theorem respond_tab (r : Response) (s : State) : (respond r s).tab = s.tab := rfl
@[simp] theorem respond_init (r : Response) (s : State) : (respond r s).init = s.init := rfl
@[simp] theorem respond_dm (r : Response) (s : State) : (respond r s).dm = s.dm := rfl
@[simp] theorem respond_bl (r : Response) (s : State) : (respond r s).bl = s.bl := rfl
@[simp] theorem respond_bus8 (r : Response) (s : State) : (respond r s).bus8 = s.bus8 := rfl
@[simp] theorem respond_acsp (r : Response) (s : State) : (respond r s).acsp = s.acsp := rfl
@[simp] theorem respond_flt (r : Response) (s : State) : (respond r s).flt = s.flt := rfl
@[simp] theorem respond_tr (r : Response) (s : State) : (respond r s).tr = s.tr := rfl
@[simp] theorem respond_response (r : Response) (s : State) : (respond r s).response = some r := rfl
@[simp] theorem respond_observed (r : Response) (s : State) : (respond r s).observed = s.observed := rfl
@[simp] theorem respond_pending (r : Response) (s : State) : (respond r s).pending = s.pending := rfl
@[simp] theorem respond_setupAnswers (r : Response) (s : State) : (respond r s).setupAnswers = s.setupAnswers := rfl
@[simp] theorem respond_draws (r : Response) (s : State) : (respond r s).draws = s.draws := rfl

/-! `setMode` -/

@[simp] theorem setMode_mode (m : DataMode) (s : State) : (setMode m s).mode = s.mode := rfl
@[simp] theorem setMode_cntl (m : DataMode) (s : State) : (setMode m s).cntl = s.cntl := rfl
@[simp] theorem setMode_func (m : DataMode) (s : State) : (setMode m s).func = s.func := rfl
@[simp] theorem setMode_cx (m : DataMode) (s : State) : (setMode m s).cx = s.cx := rfl
@[simp] theorem setMode_cy (m : DataMode) (s : State) : (setMode m s).cy = s.cy := rfl
@[simp] theorem setMode_offset (m : DataMode) (s : State) : (setMode m s).offset = s.offset := rfl
@[simp] theorem setMode_w (m : DataMode) (s : State) : (setMode m s).w = s.w := rfl
@[simp] theorem setMode_h (m : DataMode) (s : State) : (setMode m s).h = s.h := rfl
@[simp] theorem setMode_tm (m : DataMode) (s : State) : (setMode m s).tm = s.tm := rfl
@[simp] theorem setMode_tab (m : DataMode) (s : State) : (setMode m s).tab = s.tab := rfl
@[simp] theorem setMode_init (m : DataMode) (s : State) : (setMode m s).init = s.init := rfl
@[simp] theorem setMode_dm (m : DataMode) (s : State) : (setMode m s).dm = m := rfl
@[simp] theorem setMode_bl (m : DataMode) (s : State) : (setMode m s).bl = s.bl := rfl
@[simp] theorem setMode_bus8 (m : DataMode) (s : State) : (setMode m s).bus8 = s.bus8 := rfl
@[simp] theorem setMode_acsp (m : DataMode) (s : State) : (setMode m s).acsp = s.acsp := rfl
@[simp] theorem setMode_flt (m : DataMode) (s : State) : (setMode m s).flt = s.flt := rfl
@[simp] theorem setMode_tr (m : DataMode) (s : State) : (setMode m s).tr = s.tr ++ [.mode m] := rfl
@[simp] theorem setMode_response (m : DataMode) (s : State) : (setMode m s).response = s.response := rfl
@[simp] theorem setMode_observed (m : DataMode) (s : State) : (setMode m s).observed = s.observed := rfl
@[simp] theorem setMode_pending (m : DataMode) (s : State) : (setMode m s).pending = s.pending := rfl
@[simp] theorem setMode_setupAnswers (m : DataMode) (s : State) : (setMode m s).setupAnswers = s.setupAnswers := rfl
@[simp] theorem setMode_draws (m : DataMode) (s : State) : (setMode m s).draws = s.draws := rfl

/-! `backlight` -/

@[simp] theorem backlight_mode (on : Bool) (s : State) : (backlight on s).mode = s.mode := rfl
@[simp] theorem backlight_cntl (on : Bool) (s : State) : (backlight on s).cntl = s.cntl := rfl
@[simp] theorem backlight_func (on : Bool) (s : State) : (backlight on s).func = s.func := rfl
@[simp] theorem backlight_cx (on : Bool) (s : State) : (backlight on s).cx = s.cx := rfl
@[simp] theorem backlight_cy (on : Bool) (s : State) : (backlight on s).cy = s.cy := rfl
@[simp] theorem backlight_offset (on : Bool) (s : State) : (backlight on s).offset = s.offset := rfl
@[simp] theorem backlight_w (on : Bool) (s : State) : (backlight on s).w = s.w := rfl
@[simp] theorem backlight_h (on : Bool) (s : State) : (backlight on s).h = s.h := rfl
@[simp] theorem backlight_tm (on : Bool) (s : State) : (backlight on s).tm = s.tm := rfl
@[simp] theorem backlight_tab (on : Bool) (s : State) : (backlight on s).tab = s.tab := rfl
@[simp] theorem backlight_init (on : Bool) (s : State) : (backlight on s).init = s.init := rfl
@[simp] theorem backlight_dm (on : Bool) (s : State) : (backlight on s).dm = s.dm := rfl
@[simp] theorem backlight_bl (on : Bool) (s : State) : (backlight on s).bl = if on then .on else .off := rfl
@[simp] theorem backlight_bus8 (on : Bool) (s : State) : (backlight on s).bus8 = s.bus8 := rfl
@[simp] theorem backlight_acsp (on : Bool) (s : State) : (backlight on s).acsp = s.acsp := rfl
@[simp] theorem backlight_flt (on : Bool) (s : State) : (backlight on s).flt = s.flt := rfl
@[simp] theorem backlight_tr (on : Bool) (s : State) : (backlight on s).tr = s.tr ++ [.backlight on] := rfl
@[simp] theorem backlight_response (on : Bool) (s : State) : (backlight on s).response = s.response := rfl
@[simp] theorem backlight_observed (on : Bool) (s : State) : (backlight on s).observed = s.observed := rfl
@[simp] theorem backlight_pending (on : Bool) (s : State) : (backlight on s).pending = s.pending := rfl
@[simp] theorem backlight_setupAnswers (on : Bool) (s : State) : (backlight on s).setupAnswers = s.setupAnswers := rfl
@[simp] theorem backlight_draws (on : Bool) (s : State) : (backlight on s).draws = s.draws := rfl

/-! `setup` -/

@[simp] theorem setup_mode (s : State) : (setup s).mode = s.mode := rfl
@[simp] theorem setup_cntl (s : State) : (setup s).cntl = s.cntl := rfl
@[simp] theorem setup_func (s : State) : (setup s).func = s.func := rfl
@[simp] theorem setup_cx (s : State) : (setup s).cx = s.cx := rfl
@[simp] theorem setup_cy (s : State) : (setup s).cy = s.cy := rfl
@[simp] theorem setup_offset (s : State) : (setup s).offset = s.offset := rfl
@[simp] theorem setup_w (s : State) : (setup s).w = s.w := rfl
@[simp] theorem setup_h (s : State) : (setup s).h = s.h := rfl
@[simp] theorem setup_tm (s : State) : (setup s).tm = s.tm := rfl
@[simp] theorem setup_tab (s : State) : (setup s).tab = s.tab := rfl
@[simp] theorem setup_init (s : State) : (setup s).init = s.init := rfl
@[simp] theorem setup_dm (s : State) : (setup s).dm = s.dm := rfl
@[simp] theorem setup_bl (s : State) : (setup s).bl = s.bl := rfl
@[simp] theorem setup_bus8 (s : State) : (setup s).bus8 = s.bus8 := rfl
@[simp] theorem setup_acsp (s : State) : (setup s).acsp = s.acsp := rfl
@[simp] theorem setup_flt (s : State) : (setup s).flt = s.flt := rfl
@[simp] theorem setup_tr (s : State) : (setup s).tr = s.tr ++ [.setup] := rfl
@[simp] theorem setup_response (s : State) : (setup s).response = s.response := rfl
@[simp] theorem setup_observed (s : State) : (setup s).observed = s.observed := rfl
@[simp] theorem setup_pending (s : State) : (setup s).pending = s.pending := rfl
@[simp] theorem setup_setupAnswers (s : State) : (setup s).setupAnswers = s.setupAnswers.tail := rfl
@[simp] theorem setup_draws (s : State) : (setup s).draws = s.draws + 1 := rfl

/-! `raiseFault` -/

@[simp] theorem raiseFault_mode (c : FaultCode) (s : State) : (raiseFault c s).mode = s.mode := rfl
@[simp] theorem raiseFault_cntl (c : FaultCode) (s : State) : (raiseFault c s).cntl = s.cntl := rfl
@[simp] theorem raiseFault_func (c : FaultCode) (s : State) : (raiseFault c s).func = s.func := rfl
@[simp] theorem raiseFault_cx (c : FaultCode) (s : State) : (raiseFault c s).cx = s.cx := rfl
@[simp] theorem raiseFault_cy (c : FaultCode) (s : State) : (raiseFault c s).cy = s.cy := rfl
@[simp] theorem raiseFault_offset (c : FaultCode) (s : State) : (raiseFault c s).offset = s.offset := rfl
@[simp] theorem raiseFault_w (c : FaultCode) (s : State) : (raiseFault c s).w = s.w := rfl
@[simp] theorem raiseFault_h (c : FaultCode) (s : State) : (raiseFault c s).h = s.h := rfl
@[simp] theorem raiseFault_tm (c : FaultCode) (s : State) : (raiseFault c s).tm = s.tm := rfl
@[simp] theorem raiseFault_tab (c : FaultCode) (s : State) : (raiseFault c s).tab = s.tab := rfl
@[simp] theorem raiseFault_init (c : FaultCode) (s : State) : (raiseFault c s).init = s.init := rfl
@[simp] theorem raiseFault_dm (c : FaultCode) (s : State) : (raiseFault c s).dm = s.dm := rfl
@[simp] theorem raiseFault_bl (c : FaultCode) (s : State) : (raiseFault c s).bl = s.bl := rfl
@[simp] theorem raiseFault_bus8 (c : FaultCode) (s : State) : (raiseFault c s).bus8 = s.bus8 := rfl
@[simp] theorem raiseFault_acsp (c : FaultCode) (s : State) : (raiseFault c s).acsp = s.acsp := rfl
@[simp] theorem raiseFault_flt (c : FaultCode) (s : State) : (raiseFault c s).flt = faultValue c := rfl
@[simp] theorem raiseFault_tr (c : FaultCode) (s : State) : (raiseFault c s).tr = [] := rfl
@[simp] theorem raiseFault_response (c : FaultCode) (s : State) : (raiseFault c s).response = none := rfl
@[simp] theorem raiseFault_observed (c : FaultCode) (s : State) : (raiseFault c s).observed = s.observed := rfl
@[simp] theorem raiseFault_pending (c : FaultCode) (s : State) : (raiseFault c s).pending = s.pending := rfl
@[simp] theorem raiseFault_setupAnswers (c : FaultCode) (s : State) : (raiseFault c s).setupAnswers = s.setupAnswers := rfl
@[simp] theorem raiseFault_draws (c : FaultCode) (s : State) : (raiseFault c s).draws = s.draws := rfl

/-! `moveTo` -/

@[simp] theorem moveTo_mode (p : Nat × Nat) (s : State) : (moveTo p s).mode = s.mode := rfl
@[simp] theorem moveTo_cntl (p : Nat × Nat) (s : State) : (moveTo p s).cntl = s.cntl := rfl
@[simp] theorem moveTo_func (p : Nat × Nat) (s : State) : (moveTo p s).func = s.func := rfl
@[simp] theorem moveTo_cx (p : Nat × Nat) (s : State) : (moveTo p s).cx = p.1 := rfl
@[simp] theorem moveTo_cy (p : Nat × Nat) (s : State) : (moveTo p s).cy = p.2 := rfl
@[simp] theorem moveTo_offset (p : Nat × Nat) (s : State) : (moveTo p s).offset = s.offset := rfl
@[simp] theorem moveTo_w (p : Nat × Nat) (s : State) : (moveTo p s).w = s.w := rfl
@[simp] theorem moveTo_h (p : Nat × Nat) (s : State) : (moveTo p s).h = s.h := rfl
@[simp] theorem moveTo_tm (p : Nat × Nat) (s : State) : (moveTo p s).tm = s.tm := rfl
@[simp] theorem moveTo_tab (p : Nat × Nat) (s : State) : (moveTo p s).tab = s.tab := rfl
@[simp] theorem moveTo_init (p : Nat × Nat) (s : State) : (moveTo p s).init = s.init := rfl
@[simp] theorem moveTo_dm (p : Nat × Nat) (s : State) : (moveTo p s).dm = s.dm := rfl
@[simp] theorem moveTo_bl (p : Nat × Nat) (s : State) : (moveTo p s).bl = s.bl := rfl
@[simp] theorem moveTo_bus8 (p : Nat × Nat) (s : State) : (moveTo p s).bus8 = s.bus8 := rfl
@[simp] theorem moveTo_acsp (p : Nat × Nat) (s : State) : (moveTo p s).acsp = .ddram := rfl
@[simp] theorem moveTo_flt (p : Nat × Nat) (s : State) : (moveTo p s).flt = s.flt := rfl
@[simp] theorem moveTo_tr (p : Nat × Nat) (s : State) : (moveTo p s).tr = s.tr ++ [.byte (setDdramByte (ddramAddr s.offset p.1 p.2))] := rfl
@[simp] theorem moveTo_response (p : Nat × Nat) (s : State) : (moveTo p s).response = s.response := rfl
@[simp] theorem moveTo_observed (p : Nat × Nat) (s : State) : (moveTo p s).observed = s.observed := rfl
@[simp] theorem moveTo_pending (p : Nat × Nat) (s : State) : (moveTo p s).pending = s.pending := rfl
@[simp] theorem moveTo_setupAnswers (p : Nat × Nat) (s : State) : (moveTo p s).setupAnswers = s.setupAnswers := rfl
@[simp] theorem moveTo_draws (p : Nat × Nat) (s : State) : (moveTo p s).draws = s.draws := rfl

/-! `displayClearOp` -/

@[simp] theorem displayClearOp_mode (s : State) : (displayClearOp s).mode = setBit s.mode 1 := rfl
@[simp] theorem displayClearOp_cntl (s : State) : (displayClearOp s).cntl = s.cntl := rfl
@[simp] theorem displayClearOp_func (s : State) : (displayClearOp s).func = s.func := rfl
@[simp] theorem displayClearOp_cx (s : State) : (displayClearOp s).cx = 0 := rfl
@[simp] theorem displayClearOp_cy (s : State) : (displayClearOp s).cy = 0 := rfl
@[simp] theorem displayClearOp_offset (s : State) : (displayClearOp s).offset = s.offset := rfl
@[simp] theorem displayClearOp_w (s : State) : (displayClearOp s).w = s.w := rfl
@[simp] theorem displayClearOp_h (s : State) : (displayClearOp s).h = s.h := rfl
@[simp] theorem displayClearOp_tm (s : State) : (displayClearOp s).tm = s.tm := rfl
@[simp] theorem displayClearOp_tab (s : State) : (displayClearOp s).tab = s.tab := rfl
@[simp] theorem displayClearOp_init (s : State) : (displayClearOp s).init = s.init := rfl
@[simp] theorem displayClearOp_dm (s : State) : (displayClearOp s).dm = s.dm := rfl
@[simp] theorem displayClearOp_bl (s : State) : (displayClearOp s).bl = s.bl := rfl
@[simp] theorem displayClearOp_bus8 (s : State) : (displayClearOp s).bus8 = s.bus8 := rfl
@[simp] theorem displayClearOp_acsp (s : State) : (displayClearOp s).acsp = .ddram := rfl
@[simp] theorem displayClearOp_flt (s : State) : (displayClearOp s).flt = s.flt := rfl
@[simp] theorem displayClearOp_tr (s : State) : (displayClearOp s).tr = (s.tr ++ [.byte 0x01#8]) ++ [.wait .longExec] := rfl
@[simp] theorem displayClearOp_response (s : State) : (displayClearOp s).response = s.response := rfl
@[simp] theorem displayClearOp_observed (s : State) : (displayClearOp s).observed = s.observed := rfl
@[simp] theorem displayClearOp_pending (s : State) : (displayClearOp s).pending = s.pending := rfl
@[simp] theorem displayClearOp_setupAnswers (s : State) : (displayClearOp s).setupAnswers = s.setupAnswers := rfl
@[simp] theorem displayClearOp_draws (s : State) : (displayClearOp s).draws = s.draws := rfl

/-! `writeMirror`: every field but the mirror it names. -/

@[simp] theorem writeMirror_func (m : Mirror) (v : Byte) (s : State) : (writeMirror m v s).func = s.func := by cases m <;> rfl
@[simp] theorem writeMirror_cx (m : Mirror) (v : Byte) (s : State) : (writeMirror m v s).cx = s.cx := by cases m <;> rfl
@[simp] theorem writeMirror_cy (m : Mirror) (v : Byte) (s : State) : (writeMirror m v s).cy = s.cy := by cases m <;> rfl
@[simp] theorem writeMirror_offset (m : Mirror) (v : Byte) (s : State) : (writeMirror m v s).offset = s.offset := by cases m <;> rfl
@[simp] theorem writeMirror_w (m : Mirror) (v : Byte) (s : State) : (writeMirror m v s).w = s.w := by cases m <;> rfl
@[simp] theorem writeMirror_h (m : Mirror) (v : Byte) (s : State) : (writeMirror m v s).h = s.h := by cases m <;> rfl
@[simp] theorem writeMirror_tm (m : Mirror) (v : Byte) (s : State) : (writeMirror m v s).tm = s.tm := by cases m <;> rfl
@[simp] theorem writeMirror_tab (m : Mirror) (v : Byte) (s : State) : (writeMirror m v s).tab = s.tab := by cases m <;> rfl
@[simp] theorem writeMirror_init (m : Mirror) (v : Byte) (s : State) : (writeMirror m v s).init = s.init := by cases m <;> rfl
@[simp] theorem writeMirror_dm (m : Mirror) (v : Byte) (s : State) : (writeMirror m v s).dm = s.dm := by cases m <;> rfl
@[simp] theorem writeMirror_bl (m : Mirror) (v : Byte) (s : State) : (writeMirror m v s).bl = s.bl := by cases m <;> rfl
@[simp] theorem writeMirror_bus8 (m : Mirror) (v : Byte) (s : State) : (writeMirror m v s).bus8 = s.bus8 := by cases m <;> rfl
@[simp] theorem writeMirror_acsp (m : Mirror) (v : Byte) (s : State) : (writeMirror m v s).acsp = s.acsp := by cases m <;> rfl
@[simp] theorem writeMirror_flt (m : Mirror) (v : Byte) (s : State) : (writeMirror m v s).flt = s.flt := by cases m <;> rfl
@[simp] theorem writeMirror_tr (m : Mirror) (v : Byte) (s : State) : (writeMirror m v s).tr = s.tr := by cases m <;> rfl
@[simp] theorem writeMirror_response (m : Mirror) (v : Byte) (s : State) : (writeMirror m v s).response = s.response := by cases m <;> rfl
@[simp] theorem writeMirror_observed (m : Mirror) (v : Byte) (s : State) : (writeMirror m v s).observed = s.observed := by cases m <;> rfl
@[simp] theorem writeMirror_pending (m : Mirror) (v : Byte) (s : State) : (writeMirror m v s).pending = s.pending := by cases m <;> rfl
@[simp] theorem writeMirror_setupAnswers (m : Mirror) (v : Byte) (s : State) : (writeMirror m v s).setupAnswers = s.setupAnswers := by cases m <;> rfl
@[simp] theorem writeMirror_draws (m : Mirror) (v : Byte) (s : State) : (writeMirror m v s).draws = s.draws := by cases m <;> rfl
@[simp] theorem writeMirror_mode_mode (v : Byte) (s : State) : (writeMirror .mode v s).mode = v := rfl
@[simp] theorem writeMirror_mode_cntl (v : Byte) (s : State) : (writeMirror .mode v s).cntl = s.cntl := rfl
@[simp] theorem writeMirror_cntl_mode (v : Byte) (s : State) : (writeMirror .cntl v s).mode = s.mode := rfl
@[simp] theorem writeMirror_cntl_cntl (v : Byte) (s : State) : (writeMirror .cntl v s).cntl = v := rfl
@[simp] theorem mirrorValue_writeMirror (m : Mirror) (v : Byte) (s : State) : mirrorValue m (writeMirror m v s) = v := by
  cases m <;> rfl

end Sys2Proof.Machine
end

