-- ==== Sys2Proof/Laws/Ops.lean ====
section
/-! SUPPORT. One lemma per shared operation that says what it can do: the admission wrappers, the data bytes, the cursor
moves, the line feed, the printable write, the clear and the mirror toggles. -/

namespace Sys2Proof.Machine

/-! Admission. -/

theorem unlessFaulted_next_iff {s t : State} {r : Result} :
    unlessFaulted s r = .next t ↔ s.flt = 0x00#8 ∧ r = .next t := by
  unfold unlessFaulted
  split <;> simp_all

theorem unlessFaulted_of_faulted {s : State} (h : s.flt ≠ 0x00#8) (r : Result) :
    unlessFaulted s r = .fault (.faulted s.flt) := by simp [unlessFaulted, h]

theorem unlessFaulted_of_running {s : State} (h : s.flt = 0x00#8) (r : Result) : unlessFaulted s r = r := by
  simp [unlessFaulted, h]

theorem inAnyState_of_running {s : State} (h : s.flt = 0x00#8) (body : State → State) :
    inAnyState s body = .next (body (startRequest s)) := unlessFaulted_of_running h _

theorem faultRequest_of_running {s : State} (h : s.flt = 0x00#8) (c : FaultCode) :
    faultRequest c s = .next (raiseFault c s) := unlessFaulted_of_running h _

theorem whenReady_of_ready {s : State} (h : s.Ready) (body : State → State) :
    whenReady s body = .next (body (startRequest s)) := by
  simp [whenReady, unlessFaulted, h.1, h.2]

theorem whenReady_of_not_ready {s : State} (hf : s.flt = 0x00#8) (hi : s.init ≠ .ready) (body : State → State) :
    whenReady s body = .next (raiseFault .notReady s) := by
  simp [whenReady, unlessFaulted, hf, hi]

/-- Everything `whenReady` can answer with a next state. -/
theorem whenReady_cases {s t : State} {body : State → State} (h : whenReady s body = .next t) :
    s.flt = 0x00#8 ∧ ((s.init = .ready ∧ t = body (startRequest s)) ∨ (s.init ≠ .ready ∧ t = raiseFault .notReady s)) := by
  obtain ⟨hf, ht⟩ := unlessFaulted_next_iff.1 h
  refine ⟨hf, ?_⟩
  split at ht <;> cases ht <;> simp_all

/-- Everything `whenNotStarted` can answer with a next state. -/
theorem whenNotStarted_cases {s t : State} {body : State → State} (h : whenNotStarted s body = .next t) :
    s.flt = 0x00#8 ∧ (((s.init = .powerOn ∨ s.init = .shutdown) ∧ t = body (startRequest s)) ∨
      (¬(s.init = .powerOn ∨ s.init = .shutdown) ∧ t = raiseFault .alreadyReady s)) := by
  obtain ⟨hf, ht⟩ := unlessFaulted_next_iff.1 h
  refine ⟨hf, ?_⟩
  split at ht <;> cases ht <;> simp_all

/-- Everything `inAnyState` can answer with a next state. -/
theorem inAnyState_cases {s t : State} {body : State → State} (h : inAnyState s body = .next t) :
    s.flt = 0x00#8 ∧ t = body (startRequest s) := by
  obtain ⟨hf, ht⟩ := unlessFaulted_next_iff.1 h
  cases ht
  exact ⟨hf, rfl⟩

/-- Everything `faultRequest` can answer with a next state. -/
theorem faultRequest_cases {s t : State} {c : FaultCode} (h : faultRequest c s = .next t) :
    s.flt = 0x00#8 ∧ t = raiseFault c s := by
  obtain ⟨hf, ht⟩ := unlessFaulted_next_iff.1 h
  cases ht
  exact ⟨hf, rfl⟩

/-- Everything the emission of a row NIB can answer with a next state. -/
theorem emitInEitherMode_cases {s t : State} {op : State → State} (h : emitInEitherMode s op = .next t) :
    s.flt = 0x00#8 ∧ t = op s := by
  obtain ⟨hf, h⟩ := unlessFaulted_next_iff.1 h
  cases h
  exact ⟨hf, rfl⟩

/-- Everything the emission of a row CMD can answer with a next state. -/
theorem emitInInstructionMode_cases {s t : State} {op : State → State} (h : emitInInstructionMode s op = .next t) :
    s.flt = 0x00#8 ∧ s.dm = .instruction ∧ t = op s := by
  obtain ⟨hf, ht⟩ := unlessFaulted_next_iff.1 h
  split at ht <;> cases ht
  exact ⟨hf, ‹_›, rfl⟩

/-- Everything the emission of a row DATA can answer with a next state. -/
theorem emitInDataMode_cases {s t : State} {op : State → State} (h : emitInDataMode s op = .next t) :
    s.flt = 0x00#8 ∧ s.dm = .data ∧ t = op s := by
  obtain ⟨hf, ht⟩ := unlessFaulted_next_iff.1 h
  split at ht <;> cases ht
  exact ⟨hf, ‹_›, rfl⟩

/-! Data bytes. -/

/-- `datAll` appends one data byte event per byte and changes nothing else (20_memory.md rule R52). -/
theorem datAll_eq (bs : List Byte) (s : State) : datAll bs s = { s with tr := s.tr ++ bs.map Event.byte } := by
  induction bs generalizing s with
  | nil => simp [datAll]
  | cons b bs ih => simp [datAll, ih, emit]

/-! Cursor moves. -/

theorem clampCell_in_range {w h x y : Nat} (hx : x < w) (hy : y < h) : clampCell w h x y = (x, y) := by
  simp [clampCell]; omega

theorem clampCell_out_of_range {w h : Nat} {x y : Int} (ho : x < 0 ∨ (w : Int) ≤ x ∨ y < 0 ∨ (h : Int) ≤ y) :
    clampCell w h x y = (0, 0) := by simp [clampCell, ho]

/-- Where there is a cell at all, a cursor move lands on one. -/
theorem clampCell_is_cell {w h : Nat} (hw : 0 < w) (hh : 0 < h) (x y : Int) :
    (clampCell w h x y).1 < w ∧ (clampCell w h x y).2 < h := by
  unfold clampCell
  split
  · exact ⟨hw, hh⟩
  · constructor <;> simp only <;> omega

/-! Mirror toggles. -/

/-- `set_bit_op` on CNTL: the mirror's new byte is written and sent, and nothing else changes. -/
theorem setBitOp_cntl (k : Nat) (s : State) :
    setBitOp .cntl k s = { s with cntl := setBit s.cntl k, tr := s.tr ++ [.byte (setBit s.cntl k)] } := rfl

/-- `clear_bit_op` on CNTL: the mirror's new byte is written and sent, and nothing else changes. -/
theorem clearBitOp_cntl (k : Nat) (s : State) :
    clearBitOp .cntl k s = { s with cntl := clearBit s.cntl k, tr := s.tr ++ [.byte (clearBit s.cntl k)] } := rfl

/-- `set_bit_op` on MODE: the mirror's new byte is written and sent, and nothing else changes. -/
theorem setBitOp_mode (k : Nat) (s : State) :
    setBitOp .mode k s = { s with mode := setBit s.mode k, tr := s.tr ++ [.byte (setBit s.mode k)] } := rfl

/-- `clear_bit_op` on MODE: the mirror's new byte is written and sent, and nothing else changes. -/
theorem clearBitOp_mode (k : Nat) (s : State) :
    clearBitOp .mode k s = { s with mode := clearBit s.mode k, tr := s.tr ++ [.byte (clearBit s.mode k)] } := rfl

/-! Line feed and printable write. -/

/-- The row a line feed goes to (44_text_stream.md rule R157). -/
theorem linefeed_cell {w h : Nat} (hw : 0 < w) (y : Nat) :
    clampCell w h 0 (y + 1) = (0, if y + 1 < h then y + 1 else 0) := by
  unfold clampCell
  split <;> split <;> simp <;> omega

/-- `linefeed_op` moves to a cell at the start of a row, blanks the row and moves there again: the cursor, the trace and
the address space change, and nothing else. -/
theorem linefeedOp_eq {s : State} (hw : 0 < s.w) (hh : 0 < s.h) :
    let y := if s.cy + 1 < s.h then s.cy + 1 else 0
    linefeedOp s =
      { s with
        cx := 0, cy := y, acsp := .ddram, dm := .instruction
        tr := s.tr ++ [.byte (setDdramByte (s.offset.get y).toNat), .mode .data] ++ List.replicate s.w (.byte spaceChar) ++
          [.mode .instruction, .byte (setDdramByte (s.offset.get y).toNat)] } := by
  have hy : (if s.cy + 1 < s.h then s.cy + 1 else 0) < s.h := by split <;> omega
  generalize hyd : (if s.cy + 1 < s.h then s.cy + 1 else 0) = y at hy
  have h1 : clampCell s.w s.h 0 (s.cy + 1) = (0, y) := by rw [linefeed_cell hw, hyd]
  have h2 : clampCell s.w s.h 0 y = (0, y) := clampCell_in_range (x := 0) hw hy
  simp [linefeedOp, cursorSetOp, h1, h2, datAll_eq, moveTo, setMode, emit, ddramAddr, List.map_replicate]

/-- `print_op` on a line that is not full: the column advances by one and the byte goes out between its mode changes. -/
theorem printOp_of_not_full {s : State} (h : s.cx ≠ s.w) (c : Byte) :
    printOp c s =
      { s with cx := s.cx + 1, dm := .instruction, tr := s.tr ++ [.mode .data, .byte c, .mode .instruction] } := by
  simp [printOp, wrapIfFull, h, setMode, emit]

/-- `print_op` on a full line: the line feed, then the byte at the start of the line. -/
theorem printOp_of_full {s : State} (h : s.cx = s.w) (c : Byte) :
    printOp c s =
      { linefeedOp s with
        cx := (linefeedOp s).cx + 1, dm := .instruction
        tr := (linefeedOp s).tr ++ [.mode .data, .byte c, .mode .instruction] } := by
  simp [printOp, wrapIfFull, h, setMode, emit]

end Sys2Proof.Machine
end

