-- ==== Sys2Proof/Laws/Inv.lean ====
section
/-! SUPPORT. What the invariant gives at once: the geometry's bounds, the first row's base, and the range of addresses. -/

namespace Sys2Proof.Machine

/-- 43_address_translation.md rule R144, as a proposition. -/
theorem geometryAdmitted_iff {w h : Nat} :
    geometryAdmitted w h = true ↔
      1 ≤ h ∧ h ≤ 4 ∧ 1 ≤ w ∧ ∀ y, y < h → ((rowOffsets w h).get y).toNat + w - 1 ≤ 127 := by
  simp [geometryAdmitted, and_assoc]

theorem State.Inv.width_pos {s : State} (hI : s.Inv) : 0 < s.w := (geometryAdmitted_iff.1 hI.geometry).2.2.1

theorem State.Inv.height_pos {s : State} (hI : s.Inv) : 0 < s.h := (geometryAdmitted_iff.1 hI.geometry).1

/-- Row 0 starts at DDRAM address 0 (43_address_translation.md rule R141). -/
theorem State.Inv.row_zero {s : State} (hI : s.Inv) : s.offset.get 0 = 0#8 := by
  rw [hI.offset]
  unfold rowOffsets
  split <;> rfl

/-- The DDRAM address of every cell fits 7 bits (30_encoding.md rule R77). -/
theorem State.Inv.addr_le {s : State} (hI : s.Inv) {x y : Nat} (hx : x < s.w) (hy : y < s.h) :
    (s.offset.get y).toNat + x ≤ 127 := by
  have := (geometryAdmitted_iff.1 hI.geometry).2.2.2 y hy
  rw [hI.offset]
  omega

end Sys2Proof.Machine
end

