-- ==== Sys2Proof/Laws/Exec.lean ====
section
/-! SUPPORT. Once and for all what an instruction can do: a request either raises a fault or, where it is admitted, performs
its body on the state with an empty trace; a row of the emitted formats appends one event. Proofs about every instruction
start from here instead of unfolding the meanings. -/

namespace Sys2Proof.Machine

/-- The body of the rule of a stream byte's class (44_text_stream.md rule R150). -/
def classBody (c : Byte) : StreamClass → State → State
  | .bel => belOp
  | .bs => bsOp
  | .ht => htOp
  | .ff => ffOp
  | .cr => crOp
  | .ctlOther => ctlOtherOp
  | .lf => lfOp
  | .printable => printableOp c

/-- The body of a request, performed on the state with an empty trace; the identity for what has no body. -/
def body : Instr → State → State
  | .beginReq, s => beginOp (setupAnswer s) s
  | .endReq, s => respond (.bool true) { clearBitOp .cntl 2 s with init := .shutdown }
  | .write c, s => classBody c (streamClass c) s
  | .cursorSet x y, s => respond .none (cursorSetOp (operand x) (operand y) s)
  | .cursorGet, s => respond (.pos s.cx s.cy) s
  | .cursorHome, s => respond .none (cursorHomeOp s)
  | .displayClear, s => respond .none (displayClearOp s)
  | .displayOn, s => respond .none (setBitOp .cntl 2 s)
  | .displayOff, s => respond .none (clearBitOp .cntl 2 s)
  | .backlightOn, s => respond .none (backlight true s)
  | .backlightOff, s => respond .none (backlight false s)
  | .cursorUnderlineOn, s => respond .none (setBitOp .cntl 1 s)
  | .cursorUnderlineOff, s => respond .none (clearBitOp .cntl 1 s)
  | .cursorBlinkOn, s => respond .none (setBitOp .cntl 0 s)
  | .cursorBlinkOff, s => respond .none (clearBitOp .cntl 0 s)
  | .displayScrollLeft, s => respond .none (cmd 0x18#8 s)
  | .displayScrollRight, s => respond .none (cmd 0x1C#8 s)
  | .entryLeftToRight, s => respond .none (setBitOp .mode 1 s)
  | .entryRightToLeft, s => respond .none (clearBitOp .mode 1 s)
  | .entryShiftOn, s => respond .none (setBitOp .mode 0 s)
  | .entryShiftOff, s => respond .none (clearBitOp .mode 0 s)
  | .setCustomChar id b0 b1 b2 b3 b4 b5 b6 b7, s =>
    respond .none (setCustomCharOp id [b0, b1, b2, b3, b4, b5, b6, b7] s)
  | .textNormalMode, s => respond .none { s with tm := .normal }
  | .textInvertedMode, s => respond .none { s with tm := .inverted }
  | .tabStepGet, s => respond (.step s.tab) s
  | .tabStepSet v, s => respond .none { s with tab := v }
  | .writeBel, s => belOp s
  | .writeBs, s => bsOp s
  | .writeHt, s => htOp s
  | .writeLf, s => lfOp s
  | .writeFf, s => ffOp s
  | .writeCr, s => crOp s
  | .writeCtlOther _, s => ctlOtherOp s
  | .writePrintable c, s => printableOp c s
  | .reserved _, s | .clearDisplay, s | .returnHome, s | .entryModeSet _ _, s | .displayControl _ _ _, s
  | .displayShiftLeft, s | .displayShiftRight, s | .functionSet _, s | .functionSet8Bit, s | .setCgramAddr _, s
  | .setDdramAddr _, s | .nibbleFs8, s | .nibbleFs4, s | .data _, s => s

/-- Where a request performs its body: admitted by INIT and with legal operands (60_exceptions.md rules R182, R184). -/
def Performs (i : Instr) (s : State) : Prop :=
  match i with
  | .beginReq => s.init = .powerOn ∨ s.init = .shutdown
  | .cursorGet | .textNormalMode | .textInvertedMode | .tabStepGet => True
  | .tabStepSet v => v ≠ 0x00#8
  | .setCustomChar id _ _ _ _ _ _ _ _ => s.init = .ready ∧ id.toNat ≤ 7
  | .reserved _ => False
  | _ => s.init = .ready

/-- The fault a request raises where it does not perform its body (60_exceptions.md rule R182). -/
def requestFault (i : Instr) (s : State) : FaultCode :=
  match i with
  | .beginReq => .alreadyReady
  | .tabStepSet _ => .badTabStep
  | .setCustomChar _ _ _ _ _ _ _ _ _ => if s.init = .ready then .badCharId else .notReady
  | .reserved _ => .illegalRequest
  | _ => .notReady

theorem whenReady_eq {s : State} (hf : s.flt = 0x00#8) (f : State → State) :
    (s.init = .ready → whenReady s f = .next (f (startRequest s))) ∧
      (¬ s.init = .ready → whenReady s f = .next (raiseFault .notReady s)) :=
  ⟨fun h => whenReady_of_ready ⟨hf, h⟩ f, fun h => whenReady_of_not_ready hf h f⟩

/-- A request, in an engine that is not faulted, performs its body or raises its fault. -/
theorem exec_request {s : State} (hf : s.flt = 0x00#8) (i : Instr) (hi : i.isRequest = true) :
    (Performs i s → exec i s = .next (body i (startRequest s))) ∧
      (¬ Performs i s → exec i s = .next (raiseFault (requestFault i s) s)) := by
  have ready := whenReady_eq hf (body i)
  have any : exec i s = inAnyState s (body i) → exec i s = .next (body i (startRequest s)) := fun h => by
    rw [h, inAnyState_of_running hf]
  cases i
  case beginReq =>
    constructor <;> intro h <;>
      simp_all [Performs, exec, execBegin, whenNotStarted, unlessFaulted, body, requestFault]
  case cursorGet => exact ⟨fun _ => any rfl, fun h => absurd trivial h⟩
  case textNormalMode => exact ⟨fun _ => any rfl, fun h => absurd trivial h⟩
  case textInvertedMode => exact ⟨fun _ => any rfl, fun h => absurd trivial h⟩
  case tabStepGet => exact ⟨fun _ => any rfl, fun h => absurd trivial h⟩
  case tabStepSet v =>
    constructor <;> intro h <;>
      simp_all [Performs, exec, execTabStepSet, faultRequest, inAnyState, unlessFaulted, body, requestFault]
  case setCustomChar id b0 b1 b2 b3 b4 b5 b6 b7 =>
    by_cases hr : s.init = .ready <;> by_cases h7 : id.toNat ≤ 7 <;>
      simp_all [Performs, exec, execSetCustomChar, operand, faultRequest, whenReady, unlessFaulted, body, requestFault,
        Nat.not_lt.2, Nat.not_le.1]
  case reserved => exact ⟨fun h => h.elim, fun _ => faultRequest_of_running hf _⟩
  case write c =>
    have hw : exec (.write c) s = whenReady s (body (.write c)) := by
      simp only [exec, execWrite]
      congr 1
      funext s
      simp only [body]
      cases streamClass c <;> rfl
    rw [hw]
    exact ready
  all_goals first
    | exact absurd (show false = true from hi) (by decide)
    | exact ready

/-- Every meaning answers through the check of FLT (60_exceptions.md rule R181). -/
theorem exec_checks_flt (i : Instr) (s : State) : ∃ r, exec i s = unlessFaulted s r := by
  cases i
  case tabStepSet v =>
    simp only [exec, execTabStepSet]
    split <;> exact ⟨_, rfl⟩
  case setCustomChar =>
    simp only [exec, execSetCustomChar]
    split <;> exact ⟨_, rfl⟩
  all_goals exact ⟨_, rfl⟩

/-- Everything a request can answer with a next state. -/
theorem exec_request_cases {s t : State} {i : Instr} (hi : i.isRequest = true) (h : exec i s = .next t) :
    s.flt = 0x00#8 ∧ ((Performs i s ∧ t = body i (startRequest s)) ∨
      (¬ Performs i s ∧ t = raiseFault (requestFault i s) s)) := by
  have hf := (unlessFaulted_next_iff.1 ((exec_checks_flt i s).choose_spec ▸ h)).1
  refine ⟨hf, ?_⟩
  by_cases hp : Performs i s
  · left
    rw [(exec_request hf i hi).1 hp] at h
    cases h
    exact ⟨hp, rfl⟩
  · right
    rw [(exec_request hf i hi).2 hp] at h
    cases h
    exact ⟨hp, rfl⟩

/-- Everything a row of the emitted formats can answer with a next state: one event more, in the data mode it requires where
it requires one. -/
theorem exec_emitted_cases {s t : State} {i : Instr} (hi : i.isRequest = false) (h : exec i s = .next t) :
    s.flt = 0x00#8 ∧ (∃ e, t = emit e s) ∧ (i.format = .cmd → s.dm = .instruction) ∧
      (i.format = .data → s.dm = .data) := by
  cases i
  case data d =>
    obtain ⟨hf, hd, ht⟩ := emitInDataMode_cases h
    exact ⟨hf, ⟨_, ht⟩, nofun, fun _ => hd⟩
  all_goals first
    | exact absurd (show true = false from hi) (by decide)
    | (obtain ⟨hf, ht⟩ := emitInEitherMode_cases h; exact ⟨hf, ⟨_, ht⟩, nofun, nofun⟩)
    | (obtain ⟨hf, hd, ht⟩ := emitInInstructionMode_cases h; exact ⟨hf, ⟨_, ht⟩, fun _ => hd, nofun⟩)

end Sys2Proof.Machine
end

