-- ==== Sys2Proof/Laws/PerInstr.lean ====
section
/-! SUPPORT. A statement about every instruction as syntax, one lemma per constructor: how long its encoding is
(30_encoding.md rules R70, R83). -/

namespace Sys2Proof.Laws

/-- An encoding is one byte, and a request frame is its opcode byte and as many operand bytes as the opcode has. -/
def EncodingLength.Statement (i : Instr) : Prop :=
  i.wellFormed = true →
    (encode i).length = if i.format = .req then 1 + operandCount ((encode i).headD 0x00#8) else 1

/-- A reserved opcode has no operands. -/
theorem operandCount_of_reserved : ∀ c : Byte, isReservedOpcode c = true → operandCount c = 0 := by decide +revert

theorem EncodingLength.beginReq : EncodingLength.Statement .beginReq := fun _ => rfl

theorem EncodingLength.endReq : EncodingLength.Statement .endReq := fun _ => rfl

theorem EncodingLength.write (c : Byte) : EncodingLength.Statement (.write c) := fun _ => rfl

theorem EncodingLength.cursorSet (x y : Byte) : EncodingLength.Statement (.cursorSet x y) := fun _ => rfl

theorem EncodingLength.cursorGet : EncodingLength.Statement .cursorGet := fun _ => rfl

theorem EncodingLength.cursorHome : EncodingLength.Statement .cursorHome := fun _ => rfl

theorem EncodingLength.displayClear : EncodingLength.Statement .displayClear := fun _ => rfl

theorem EncodingLength.displayOn : EncodingLength.Statement .displayOn := fun _ => rfl

theorem EncodingLength.displayOff : EncodingLength.Statement .displayOff := fun _ => rfl

theorem EncodingLength.backlightOn : EncodingLength.Statement .backlightOn := fun _ => rfl

theorem EncodingLength.backlightOff : EncodingLength.Statement .backlightOff := fun _ => rfl

theorem EncodingLength.cursorUnderlineOn : EncodingLength.Statement .cursorUnderlineOn := fun _ => rfl

theorem EncodingLength.cursorUnderlineOff : EncodingLength.Statement .cursorUnderlineOff := fun _ => rfl

theorem EncodingLength.cursorBlinkOn : EncodingLength.Statement .cursorBlinkOn := fun _ => rfl

theorem EncodingLength.cursorBlinkOff : EncodingLength.Statement .cursorBlinkOff := fun _ => rfl

theorem EncodingLength.displayScrollLeft : EncodingLength.Statement .displayScrollLeft := fun _ => rfl

theorem EncodingLength.displayScrollRight : EncodingLength.Statement .displayScrollRight := fun _ => rfl

theorem EncodingLength.entryLeftToRight : EncodingLength.Statement .entryLeftToRight := fun _ => rfl

theorem EncodingLength.entryRightToLeft : EncodingLength.Statement .entryRightToLeft := fun _ => rfl

theorem EncodingLength.entryShiftOn : EncodingLength.Statement .entryShiftOn := fun _ => rfl

theorem EncodingLength.entryShiftOff : EncodingLength.Statement .entryShiftOff := fun _ => rfl

theorem EncodingLength.setCustomChar (id b0 b1 b2 b3 b4 b5 b6 b7 : Byte) : EncodingLength.Statement (.setCustomChar id b0 b1 b2 b3 b4 b5 b6 b7) := fun _ => rfl

theorem EncodingLength.textNormalMode : EncodingLength.Statement .textNormalMode := fun _ => rfl

theorem EncodingLength.textInvertedMode : EncodingLength.Statement .textInvertedMode := fun _ => rfl

theorem EncodingLength.tabStepGet : EncodingLength.Statement .tabStepGet := fun _ => rfl

theorem EncodingLength.tabStepSet (step : Byte) : EncodingLength.Statement (.tabStepSet step) := fun _ => rfl

theorem EncodingLength.reserved (opcode : Byte) : EncodingLength.Statement (.reserved opcode) := fun h => by
  simp [encode, Instr.format, operandCount_of_reserved opcode h]

theorem EncodingLength.writeBel : EncodingLength.Statement .writeBel := fun _ => rfl

theorem EncodingLength.writeBs : EncodingLength.Statement .writeBs := fun _ => rfl

theorem EncodingLength.writeHt : EncodingLength.Statement .writeHt := fun _ => rfl

theorem EncodingLength.writeLf : EncodingLength.Statement .writeLf := fun _ => rfl

theorem EncodingLength.writeFf : EncodingLength.Statement .writeFf := fun _ => rfl

theorem EncodingLength.writeCr : EncodingLength.Statement .writeCr := fun _ => rfl

theorem EncodingLength.writeCtlOther (c : Byte) : EncodingLength.Statement (.writeCtlOther c) := fun _ => rfl

theorem EncodingLength.writePrintable (c : Byte) : EncodingLength.Statement (.writePrintable c) := fun _ => rfl

theorem EncodingLength.clearDisplay : EncodingLength.Statement .clearDisplay := fun _ => rfl

theorem EncodingLength.returnHome : EncodingLength.Statement .returnHome := fun _ => rfl

theorem EncodingLength.entryModeSet (d sh : BitVec 1) : EncodingLength.Statement (.entryModeSet d sh) := fun _ => rfl

theorem EncodingLength.displayControl (d c b : BitVec 1) : EncodingLength.Statement (.displayControl d c b) := fun _ => rfl

theorem EncodingLength.displayShiftLeft : EncodingLength.Statement .displayShiftLeft := fun _ => rfl

theorem EncodingLength.displayShiftRight : EncodingLength.Statement .displayShiftRight := fun _ => rfl

theorem EncodingLength.functionSet (l : BitVec 1) : EncodingLength.Statement (.functionSet l) := fun _ => rfl

theorem EncodingLength.functionSet8Bit : EncodingLength.Statement .functionSet8Bit := fun _ => rfl

theorem EncodingLength.setCgramAddr (a : BitVec 3) : EncodingLength.Statement (.setCgramAddr a) := fun _ => rfl

theorem EncodingLength.setDdramAddr (a : BitVec 7) : EncodingLength.Statement (.setDdramAddr a) := fun _ => rfl

theorem EncodingLength.nibbleFs8 : EncodingLength.Statement .nibbleFs8 := fun _ => rfl

theorem EncodingLength.nibbleFs4 : EncodingLength.Statement .nibbleFs4 := fun _ => rfl

theorem EncodingLength.data (d : Byte) : EncodingLength.Statement (.data d) := fun _ => rfl

end Sys2Proof.Laws
end

