-- ==== Sys2Proof/Tests/Slice0.lean ====
section
/-! SUPPORT. The model's own tests: what WellFormed refuses, the decoding of a written word for every constructor, single
steps from the vectors of spec/95_test_vectors.md, and for every statement that has hypotheses a state and operands that meet
them. The expected values are the spec's. -/

namespace Sys2Proof.Tests

open Sys2Proof Sys2Proof.Machine

/-! ## Ill-formed terms are refused -/

theorem test_reserved_is_not_a_request : (Instr.reserved 0x05#8).wellFormed = false := by decide
theorem test_bel_is_not_ctl_other : (Instr.writeCtlOther 0x07#8).wellFormed = false := by decide
theorem test_lf_is_not_printable : (Instr.writePrintable 0x0A#8).wellFormed = false := by decide
theorem test_last_reserved_is_well_formed : (Instr.reserved 0xFF#8).wellFormed = true := by decide

/-- The classifier and the rows of the opcode table agree on every stream byte (30_encoding.md rule R75). -/
theorem test_stream_classes_agree :
    ∀ c : Byte, (streamClass c = .ctlOther ↔ isCtlOther c = true) ∧ (streamClass c = .printable ↔ isPrintable c = true) := by
  decide

/-! ## Decoding: one word written out for every constructor (spec/opcode_table.json) -/

theorem test_decode_beginReq : decode [0x01#8] = .instr .beginReq [] := by decide
theorem test_decode_endReq : decode [0x02#8] = .instr .endReq [] := by decide
theorem test_decode_write : decode [0x03#8, 0x48#8] = .instr (.write 0x48#8) [] := by decide
theorem test_decode_cursorSet : decode [0x04#8, 0x05#8, 0x01#8] = .instr (.cursorSet 0x05#8 0x01#8) [] := by decide
theorem test_decode_cursorGet : decode [0x05#8] = .instr .cursorGet [] := by decide
theorem test_decode_cursorHome : decode [0x06#8] = .instr .cursorHome [] := by decide
theorem test_decode_displayClear : decode [0x07#8] = .instr .displayClear [] := by decide
theorem test_decode_displayOn : decode [0x08#8] = .instr .displayOn [] := by decide
theorem test_decode_displayOff : decode [0x09#8] = .instr .displayOff [] := by decide
theorem test_decode_backlightOn : decode [0x0A#8] = .instr .backlightOn [] := by decide
theorem test_decode_backlightOff : decode [0x0B#8] = .instr .backlightOff [] := by decide
theorem test_decode_cursorUnderlineOn : decode [0x0C#8] = .instr .cursorUnderlineOn [] := by decide
theorem test_decode_cursorUnderlineOff : decode [0x0D#8] = .instr .cursorUnderlineOff [] := by decide
theorem test_decode_cursorBlinkOn : decode [0x0E#8] = .instr .cursorBlinkOn [] := by decide
theorem test_decode_cursorBlinkOff : decode [0x0F#8] = .instr .cursorBlinkOff [] := by decide
theorem test_decode_displayScrollLeft : decode [0x10#8] = .instr .displayScrollLeft [] := by decide
theorem test_decode_displayScrollRight : decode [0x11#8] = .instr .displayScrollRight [] := by decide
theorem test_decode_entryLeftToRight : decode [0x12#8] = .instr .entryLeftToRight [] := by decide
theorem test_decode_entryRightToLeft : decode [0x13#8] = .instr .entryRightToLeft [] := by decide
theorem test_decode_entryShiftOn : decode [0x14#8] = .instr .entryShiftOn [] := by decide
theorem test_decode_entryShiftOff : decode [0x15#8] = .instr .entryShiftOff [] := by decide
theorem test_decode_setCustomChar : decode [0x16#8, 0x02#8, 0x00#8, 0x0A#8, 0x1F#8, 0x1F#8, 0x0E#8, 0x04#8, 0x00#8, 0x80#8] = .instr (.setCustomChar 0x02#8 0x00#8 0x0A#8 0x1F#8 0x1F#8 0x0E#8 0x04#8 0x00#8 0x80#8) [] := by decide
theorem test_decode_textNormalMode : decode [0x17#8] = .instr .textNormalMode [] := by decide
theorem test_decode_textInvertedMode : decode [0x18#8] = .instr .textInvertedMode [] := by decide
theorem test_decode_tabStepGet : decode [0x19#8] = .instr .tabStepGet [] := by decide
theorem test_decode_tabStepSet : decode [0x1A#8, 0x08#8] = .instr (.tabStepSet 0x08#8) [] := by decide
theorem test_decode_reserved : decode [0x1B#8] = .instr (.reserved 0x1B#8) [] := by decide
theorem test_decode_writeBel : decodeAs .txt [0x07#8] = some (.writeBel, []) := by decide
theorem test_decode_writeBs : decodeAs .txt [0x08#8] = some (.writeBs, []) := by decide
theorem test_decode_writeHt : decodeAs .txt [0x09#8] = some (.writeHt, []) := by decide
theorem test_decode_writeLf : decodeAs .txt [0x0A#8] = some (.writeLf, []) := by decide
theorem test_decode_writeFf : decodeAs .txt [0x0C#8] = some (.writeFf, []) := by decide
theorem test_decode_writeCr : decodeAs .txt [0x0D#8] = some (.writeCr, []) := by decide
theorem test_decode_writeCtlOther : decodeAs .txt [0x1F#8] = some ((.writeCtlOther 0x1F#8), []) := by decide
theorem test_decode_writePrintable : decodeAs .txt [0x20#8] = some ((.writePrintable 0x20#8), []) := by decide
theorem test_decode_clearDisplay : decodeAs .cmd [0b00000001#8] = some (.clearDisplay, []) := by decide
theorem test_decode_returnHome : decodeAs .cmd [0b00000010#8] = some (.returnHome, []) := by decide
theorem test_decode_entryModeSet : decodeAs .cmd [0b00000110#8] = some ((.entryModeSet 1#1 0#1), []) := by decide
theorem test_decode_displayControl : decodeAs .cmd [0b00001100#8] = some ((.displayControl 1#1 0#1 0#1), []) := by decide
theorem test_decode_displayShiftLeft : decodeAs .cmd [0b00011000#8] = some (.displayShiftLeft, []) := by decide
theorem test_decode_displayShiftRight : decodeAs .cmd [0b00011100#8] = some (.displayShiftRight, []) := by decide
theorem test_decode_functionSet : decodeAs .cmd [0b00111000#8] = some ((.functionSet 1#1), []) := by decide
theorem test_decode_functionSet8Bit : decodeAs .cmd [0b00110000#8] = some (.functionSet8Bit, []) := by decide
theorem test_decode_setCgramAddr : decodeAs .cmd [0b01010000#8] = some ((.setCgramAddr 2#3), []) := by decide
theorem test_decode_setDdramAddr : decodeAs .cmd [0b11000101#8] = some ((.setDdramAddr 69#7), []) := by decide
theorem test_decode_nibbleFs8 : decodeAs .nib [0b00000011#8] = some (.nibbleFs8, []) := by decide
theorem test_decode_nibbleFs4 : decodeAs .nib [0b00000010#8] = some (.nibbleFs4, []) := by decide
theorem test_decode_data : decodeAs .data [0x41#8] = some (.data 0x41#8, []) := by decide
theorem test_cursor_only_shift_is_rejected : decodeAs .cmd [0x10#8] = none := by decide
theorem test_function_set_with_low_bits_is_rejected : decodeAs .cmd [0x29#8] = none := by decide
theorem test_cursor_set_cut_short : decode [0x04#8, 0x03#8] = .truncated := by decide
theorem test_glyph_cut_short : decode [0x16#8, 0x01#8, 0x02#8, 0x03#8] = .truncated := by decide
theorem test_next_request_is_left : decode [0x05#8, 0x06#8] = .instr .cursorGet [0x06#8] := by decide
theorem test_table_word_write : decodeTableWord 16 0x4803 = some (.write 0x48#8) := by decide
theorem test_table_word_short : decodeTableWord 8 0xFF1A = some (.tabStepSet 0x00#8) := by decide

/-! ## The assembler (30_encoding.md rules R84, R85) -/

theorem test_assemble_char :
    assemble ['W', 'R', 'I', 'T', 'E', ' ', '\'', 'H', '\''] = some [.write 0x48#8] := by decide
theorem test_assemble_cursor_set :
    assemble ['C', 'U', 'R', 'S', 'O', 'R', '_', 'S', 'E', 'T', ' ', '3', ',', ' ', '0', 'x', '1', 'F'] =
      some [.cursorSet 3#8 0x1F#8] := by decide
theorem test_assemble_bare : assemble ['B', 'E', 'G', 'I', 'N'] = some [.beginReq] := by decide
theorem test_assemble_missing_operand : assemble ['W', 'R', 'I', 'T', 'E'] = none := by decide
theorem test_assemble_print :
    assemble ['P', 'R', 'I', 'N', 'T', ' ', '"', 'H', 'i', '"'] = some [.write 0x48#8, .write 0x69#8] := by decide
theorem test_assemble_newline : assemble ['N', 'E', 'W', 'L', 'I', 'N', 'E'] = some [.write 0x0A#8] := by decide

/-! ## Single steps (95_test_vectors.md) -/

/-- "READY w×h" of 95_test_vectors.md, with its cursor at `(x, y)`. -/
def readyAt (w h x y : Nat) : State :=
  { State.initial w h with init := .ready, cntl := 0x0C#8, bl := .on, bus8 := .fourBit, cx := x, cy := y }

/-- The cursor and the trace of a next state. -/
def cursorAndTrace (r : Result) : Option (Nat × Nat × List Event) := (nextState r).map fun s => (s.cx, s.cy, s.tr)

/-- The trace of a next state. -/
def traceOf (r : Result) : Option (List Event) := (nextState r).map State.tr

/-- FLT and the response of a next state. -/
def faultAndResponse (r : Result) : Option (Byte × Option Response) := (nextState r).map fun s => (s.flt, s.response)

/-- V7: the 4-bit handshake. -/
theorem test_begin_four_bit :
    traceOf (exec .beginReq ((State.initial 16 2).answerSetup false)) =
      some [.setup, .wait .powerOn, .nibble 3#4, .wait .initLong, .nibble 3#4, .wait .initShort, .nibble 3#4,
        .wait .initShort, .nibble 2#4, .wait .initShort, .byte 0x28#8, .byte 0x08#8, .byte 0x01#8, .wait .longExec,
        .byte 0x0C#8, .backlight true] := by decide

/-- 2.2: BEGIN again after END with CNTL = 0x0B, on an 8-bit bus. -/
theorem test_begin_eight_bit_after_end :
    traceOf (exec .beginReq { (State.initial 16 2).answerSetup true with init := .shutdown, cntl := 0x0B#8 }) =
      some [.setup, .wait .powerOn, .byte 0x30#8, .byte 0x38#8, .byte 0x0B#8, .byte 0x01#8, .wait .longExec,
        .byte 0x0F#8, .backlight true] := by decide

/-- 2.2: END with CNTL = 0x0F. -/
theorem test_end :
    (nextState (exec .endReq { readyAt 16 2 0 0 with cntl := 0x0F#8 })).map (fun s => (s.cntl, s.init, s.tr)) =
      some (0x0B#8, .shutdown, [.byte 0x0B#8]) := by decide

/-- 2.7: BEGIN in READY faults. -/
theorem test_begin_twice : faultAndResponse (exec .beginReq (readyAt 16 2 0 0)) = some (0x04#8, none) := by decide

/-! 2.3: the toggles of 95_test_vectors.md, from the mirror's value before to its value after. -/

theorem test_cursorBlinkOn :
    (nextState (exec .cursorBlinkOn { readyAt 16 2 0 0 with cntl := 0x0C#8 })).map (fun s => (s.cntl, s.tr)) = some (0x0D#8, [.byte 0x0D#8]) := by
  decide

theorem test_cursorUnderlineOn :
    (nextState (exec .cursorUnderlineOn { readyAt 16 2 0 0 with cntl := 0x0D#8 })).map (fun s => (s.cntl, s.tr)) = some (0x0F#8, [.byte 0x0F#8]) := by
  decide

theorem test_displayOff :
    (nextState (exec .displayOff { readyAt 16 2 0 0 with cntl := 0x0F#8 })).map (fun s => (s.cntl, s.tr)) = some (0x0B#8, [.byte 0x0B#8]) := by
  decide

theorem test_displayOn :
    (nextState (exec .displayOn { readyAt 16 2 0 0 with cntl := 0x0B#8 })).map (fun s => (s.cntl, s.tr)) = some (0x0F#8, [.byte 0x0F#8]) := by
  decide

theorem test_cursorUnderlineOff :
    (nextState (exec .cursorUnderlineOff { readyAt 16 2 0 0 with cntl := 0x0F#8 })).map (fun s => (s.cntl, s.tr)) = some (0x0D#8, [.byte 0x0D#8]) := by
  decide

theorem test_cursorBlinkOff :
    (nextState (exec .cursorBlinkOff { readyAt 16 2 0 0 with cntl := 0x0C#8 })).map (fun s => (s.cntl, s.tr)) = some (0x0C#8, [.byte 0x0C#8]) := by
  decide

theorem test_entryRightToLeft :
    (nextState (exec .entryRightToLeft { readyAt 16 2 0 0 with mode := 0x06#8 })).map (fun s => (s.mode, s.tr)) = some (0x04#8, [.byte 0x04#8]) := by
  decide

theorem test_entryShiftOn :
    (nextState (exec .entryShiftOn { readyAt 16 2 0 0 with mode := 0x04#8 })).map (fun s => (s.mode, s.tr)) = some (0x05#8, [.byte 0x05#8]) := by
  decide

theorem test_entryLeftToRight :
    (nextState (exec .entryLeftToRight { readyAt 16 2 0 0 with mode := 0x05#8 })).map (fun s => (s.mode, s.tr)) = some (0x07#8, [.byte 0x07#8]) := by
  decide

theorem test_entryShiftOff :
    (nextState (exec .entryShiftOff { readyAt 16 2 0 0 with mode := 0x07#8 })).map (fun s => (s.mode, s.tr)) = some (0x06#8, [.byte 0x06#8]) := by
  decide

/-- V3: a clear keeps the shift bit and sets increment. -/
theorem test_displayClear :
    (nextState (exec .displayClear { readyAt 16 2 5 1 with mode := 0x05#8 })).map (fun s => (s.mode, s.cx, s.cy, s.tr)) =
      some (0x07#8, 0, 0, [.byte 0x01#8, .wait .longExec]) := by decide
theorem test_displayScrollLeft : traceOf (exec .displayScrollLeft (readyAt 16 2 0 0)) = some [.byte 0x18#8] := by decide
theorem test_displayScrollRight : traceOf (exec .displayScrollRight (readyAt 16 2 0 0)) = some [.byte 0x1C#8] := by decide
theorem test_backlightOff :
    (nextState (exec .backlightOff (readyAt 16 2 0 0))).map (fun s => (s.bl, s.tr)) = some (.off, [.backlight false]) := by decide
theorem test_backlightOn :
    (nextState (exec .backlightOn (readyAt 16 2 0 0))).map (fun s => (s.bl, s.tr)) = some (.on, [.backlight true]) := by decide
theorem test_textInvertedMode_at_reset : (nextState (exec .textInvertedMode State.reset)).map State.tm = some .inverted := by
  decide
theorem test_textNormalMode_after_end :
    (nextState (exec .textNormalMode { State.reset with init := .shutdown, tm := .inverted })).map (fun s => (s.tm, s.init)) =
      some (.normal, .shutdown) := by decide
theorem test_tabStepGet_at_reset : faultAndResponse (exec .tabStepGet State.reset) = some (0x00#8, some (.step 4#8)) := by
  decide
theorem test_tabStepSet : (nextState (exec (.tabStepSet 8#8) (readyAt 16 2 0 0))).map State.tab = some 8#8 := by decide
theorem test_tabStepSet_zero :
    (nextState (exec (.tabStepSet 0#8) State.reset)).map (fun s => (s.flt, s.tab)) = some (0x06#8, 4#8) := by decide

/-! 2.4: address translation. -/

theorem test_cursorSet_last_cell_20x4 :
    cursorAndTrace (exec (.cursorSet 0x13#8 0x03#8) (readyAt 20 4 0 0)) = some (19, 3, [.byte 0xE7#8]) := by decide
theorem test_cursorSet_out_of_range :
    cursorAndTrace (exec (.cursorSet 0x10#8 0x00#8) (readyAt 16 2 7 1)) = some (0, 0, [.byte 0x80#8]) := by decide
theorem test_cursorGet : faultAndResponse (exec .cursorGet (readyAt 16 2 16 1)) = some (0x00#8, some (.pos 16 1)) := by decide
theorem test_cursorHome :
    cursorAndTrace (exec .cursorHome (readyAt 16 2 7 1)) = some (0, 0, [.byte 0x02#8, .wait .longExec]) := by decide
theorem test_last_cell_16x4 :
    cursorAndTrace (exec (.cursorSet 0x0F#8 0x03#8) (readyAt 16 4 0 0)) = some (15, 3, [.byte 0xDF#8]) := by decide
theorem test_admitted_geometries :
    [(16, 4), (17, 4), (40, 4), (44, 4), (64, 2), (128, 1)].all (fun g => geometryAdmitted g.1 g.2) = true := by decide
theorem test_refused_geometries :
    [(16, 5), (45, 4), (65, 2), (129, 1), (0, 2)].all (fun g => !geometryAdmitted g.1 g.2) = true := by decide

/-! 2.5: the text stream. -/

theorem test_writeHt_next_stop : cursorAndTrace (exec .writeHt (readyAt 16 2 3 0)) = some (4, 0, [.byte 0x84#8]) := by decide
theorem test_writeHt_at_the_width : cursorAndTrace (exec .writeHt (readyAt 16 2 12 1)) = some (0, 0, [.byte 0x80#8]) := by
  decide
theorem test_writeBs :
    cursorAndTrace (exec .writeBs (readyAt 16 2 5 1)) =
      some (4, 1, [.byte 0xC4#8, .mode .data, .byte 0x20#8, .mode .instruction, .byte 0xC4#8]) := by decide
theorem test_writeBs_at_column_zero :
    cursorAndTrace (exec .writeBs (readyAt 16 2 0 1)) =
      some (0, 0, [.byte 0x80#8, .mode .data, .byte 0x20#8, .mode .instruction, .byte 0x80#8]) := by decide
theorem test_writeCr : cursorAndTrace (exec .writeCr (readyAt 16 2 9 1)) = some (0, 1, [.byte 0xC0#8]) := by decide
theorem test_writeLf :
    cursorAndTrace (exec .writeLf (readyAt 3 2 1 0)) =
      some (0, 1, [.byte 0xC0#8, .mode .data, .byte 0x20#8, .byte 0x20#8, .byte 0x20#8, .mode .instruction, .byte 0xC0#8]) := by
  decide
theorem test_writeLf_last_row :
    (nextState (exec .writeLf (readyAt 16 2 3 1))).map (fun s => (s.cx, s.cy, s.tr.length, s.tr.head?)) =
      some (0, 0, 20, some (.byte 0x80#8)) := by decide
theorem test_writeFf :
    cursorAndTrace (exec .writeFf (readyAt 16 2 5 1)) = some (0, 0, [.byte 0x01#8, .wait .longExec]) := by decide
theorem test_writeBel :
    (nextState (exec .writeBel (readyAt 16 2 2 0))).map (fun s => (s.tm, s.tr, s.response)) =
      some (.inverted, [], some (.count 1)) := by decide
theorem test_writeCtlOther :
    (nextState (exec (.writeCtlOther 0x01#8) (readyAt 16 2 2 0))).map (fun s => (s.tr, s.response)) =
      some ([], some (.count 0)) := by decide
theorem test_writePrintable_fills :
    cursorAndTrace (exec (.writePrintable 0x41#8) (readyAt 16 2 15 0)) =
      some (16, 0, [.mode .data, .byte 0x41#8, .mode .instruction]) := by decide
theorem test_writePrintable_wraps :
    (nextState (exec (.writePrintable 0x42#8) (readyAt 16 2 16 0))).map (fun s => (s.cx, s.cy, s.tr.drop 18)) =
      some (1, 1, [.mode .instruction, .byte 0xC0#8, .mode .data, .byte 0x42#8, .mode .instruction]) := by decide
theorem test_write_hi :
    cursorAndTrace (exec (.write 0xFF#8) (readyAt 16 2 3 0)) =
      some (4, 0, [.mode .data, .byte 0xFF#8, .mode .instruction]) := by decide
theorem test_write_before_begin : faultAndResponse (exec (.write 0x07#8) State.reset) = some (0x03#8, none) := by decide

/-! 2.6, 2.7: custom characters and faults. -/

theorem test_setCustomChar :
    (nextState (exec (.setCustomChar 7#8 0xFF#8 0#8 0xFF#8 0#8 0xFF#8 0#8 0xFF#8 0#8) (readyAt 16 2 0 0))).map
        (fun s => (s.tr, s.acsp)) =
      some ([.byte 0x78#8, .mode .data, .byte 0xFF#8, .byte 0#8, .byte 0xFF#8, .byte 0#8, .byte 0xFF#8, .byte 0#8,
        .byte 0xFF#8, .byte 0#8, .mode .instruction], .cgram) := by decide
theorem test_setCustomChar_bad_identity :
    (nextState (exec (.setCustomChar 8#8 0#8 0#8 0#8 0#8 0#8 0#8 0#8 0#8) (readyAt 16 2 0 0))).map
        (fun s => (s.flt, s.tr, s.acsp)) = some (0x05#8, [], .ddram) := by decide
theorem test_reserved_at_reset : faultAndResponse (exec (.reserved 0x1B#8) State.reset) = some (0x01#8, none) := by decide
theorem test_step_of_a_faulted_engine :
    nextState (step { State.reset with flt := 0x06#8, pending := [[0x05#8]] }) = none := by decide
theorem test_step_truncated :
    (nextState (step { State.reset with pending := [[0x04#8, 0x03#8]] })).map (fun s => (s.flt, s.pending)) =
      some (0x02#8, []) := by decide
theorem test_step_word :
    (nextState (step (State.reset.withFetchWord 16 0x051A))).map (fun s => (s.tab, s.pending, s.observed)) =
      some (5#8, [], [⟨.none, []⟩]) := by decide

/-! The emitted rows append the byte of the table's row to the trace. -/


theorem test_clearDisplay : traceOf (exec .clearDisplay { State.reset with tr := [.setup] }) = some [.setup, .byte 0x01#8] := by decide
theorem test_returnHome : traceOf (exec .returnHome { State.reset with tr := [.setup] }) = some [.setup, .byte 0x02#8] := by decide
theorem test_entryModeSet : traceOf (exec (.entryModeSet 0#1 1#1) { State.reset with tr := [.setup] }) = some [.setup, .byte 0x05#8] := by decide
theorem test_displayControl : traceOf (exec (.displayControl 0#1 1#1 1#1) { State.reset with tr := [.setup] }) = some [.setup, .byte 0x0B#8] := by decide
theorem test_displayShiftLeft : traceOf (exec .displayShiftLeft { State.reset with tr := [.setup] }) = some [.setup, .byte 0x18#8] := by decide
theorem test_displayShiftRight : traceOf (exec .displayShiftRight { State.reset with tr := [.setup] }) = some [.setup, .byte 0x1C#8] := by decide
theorem test_functionSet : traceOf (exec (.functionSet 0#1) { State.reset with tr := [.setup] }) = some [.setup, .byte 0x28#8] := by decide
theorem test_functionSet8Bit : traceOf (exec .functionSet8Bit { State.reset with tr := [.setup] }) = some [.setup, .byte 0x30#8] := by decide
theorem test_setCgramAddr : traceOf (exec (.setCgramAddr 7#3) { State.reset with tr := [.setup] }) = some [.setup, .byte 0x78#8] := by decide
theorem test_setDdramAddr : traceOf (exec (.setDdramAddr 127#7) { State.reset with tr := [.setup] }) = some [.setup, .byte 0xFF#8] := by decide
theorem test_nibbleFs8 : traceOf (exec .nibbleFs8 State.reset) = some [.nibble 3#4] := by decide
theorem test_nibbleFs4 : traceOf (exec .nibbleFs4 State.reset) = some [.nibble 2#4] := by decide
theorem test_nibble_in_data_mode : traceOf (exec .nibbleFs8 { State.reset with dm := .data }) = some [.nibble 3#4] := by decide
theorem test_data : traceOf (exec (.data 0x41#8) { State.reset with dm := .data }) = some [.byte 0x41#8] := by decide
theorem test_data_needs_data_mode : nextState (exec (.data 0x41#8) State.reset) = none := by decide

/-! ## Witnesses: for every statement with hypotheses, a state and operands that meet them all -/

theorem readyAt_inv {w h x y : Nat} (hg : geometryAdmitted w h = true) (hx : x ≤ w) (hy : y < h) : (readyAt w h x y).Inv :=
  ⟨hg, rfl, rfl, hy, hx, .inr (.inl rfl), by simp [readyAt, State.initial], by simp [readyAt, State.initial],
    by simp [readyAt, State.initial], by simp [readyAt, State.initial, Config.tabReset]⟩

theorem readyAt_ready (w h x y : Nat) : (readyAt w h x y).Ready := ⟨rfl, rfl⟩

theorem reset_inv : State.reset.Inv :=
  ⟨by decide, rfl, rfl, by decide, by decide, .inl rfl, by decide, by decide, by decide, by decide⟩

theorem witness_DecodeOfEncode : (Instr.setDdramAddr 127#7).wellFormed = true ∧ (Instr.reserved 0x00#8).wellFormed = true := by
  decide

theorem witness_EncodeOfDecode : decodeAs .nib [0x02#8, 0xFF#8] = some (.nibbleFs4, [0xFF#8]) := by decide

/-- A reserved opcode at either end of the reserved range, a frame one byte short, and a whole frame. -/
theorem witness_IllegalAndTruncatedFramesFault :
    State.reset.flt = 0x00#8 ∧ (0x1B ≤ (0x1B#8).toNat) ∧ (0x1B ≤ (0xFF#8).toNat) ∧
      ({ State.reset with pending := [[0x16#8, 0#8, 0#8, 0#8, 0#8, 0#8, 0#8, 0#8, 0#8]] }).pending =
        [0x16#8 :: [0#8, 0#8, 0#8, 0#8, 0#8, 0#8, 0#8, 0#8]] ∧
      [0#8, 0#8, 0#8, 0#8, 0#8, 0#8, 0#8, 0#8].length < 9 ∧ 0x01 ≤ (0x1A#8).toNat ∧ (0x1A#8).toNat ≤ 0x1A ∧ 1 ≤ [0#8].length := by
  decide

/-- A request that responds, one that faults and so has no response, and a frame with bytes to spare. -/
theorem witness_StepRunsTheDecodedRequest :
    decode [0x19#8] = .instr .tabStepGet [] ∧ decode [0x01#8, 0x05#8] = .instr .beginReq [0x05#8] ∧
      (nextState (exec .tabStepGet { State.reset with pending := [] })).map State.response = some (some (.step 4#8)) ∧
      (nextState (exec (.tabStepSet 0#8) { State.reset with pending := [] })).map State.response = some none := by decide

theorem witness_IdleEngineWaits : State.reset.flt = 0x00#8 ∧ State.reset.pending = [] := by decide

theorem witness_EveryRequestAnswersANextState : State.reset.flt = 0x00#8 ∧ (Instr.writeLf).isRequest = true := by decide

theorem witness_FaultsArePreciseAndFinal :
    State.reset.flt = 0x00#8 ∧ faultAndResponse (exec .endReq State.reset) = some (0x03#8, none) ∧
      ({ State.reset with flt := 0x03#8 }).flt ≠ 0x00#8 := by decide

theorem witness_AFaultingStepTakesItsFrame :
    State.reset.flt = 0x00#8 ∧
      (nextState (step { State.reset with pending := [[0x02#8, 0x05#8]] })).map (fun t => (t.flt, t.pending)) =
        some (0x03#8, [[0x05#8]]) := by decide

theorem witness_FaultPriority :
    State.reset.flt = 0x00#8 ∧ 7 < (8#8 : Byte).toNat ∧ (readyAt 16 2 0 0).init = .ready ∧ decode [0x03#8] = .truncated := by
  decide

theorem witness_AdmissionByInit :
    State.reset.flt = 0x00#8 ∧ (Instr.write 0x07#8).isRequest = true ∧ ∀ op, Instr.write 0x07#8 ≠ .reserved op :=
  ⟨rfl, rfl, fun _ => by simp⟩

theorem witness_EachCompletedRequestIsObserved :
    ({ State.reset with pending := [[0x05#8]] }).pending ≠ [] ∧
      (nextState (step { State.reset with pending := [[0x05#8]] })).map State.flt = some 0x00#8 := by decide

/-- Construction is met at the widest geometry of one row and refused one past it. -/
theorem witness_ConstructionAdmitsWellFormedGeometries :
    nextState (State.construct 128 1) = some (State.initial 128 1) ∧ nextState (State.construct 129 1) = none := by decide

theorem witness_ResetValuesAndFirstBegin : nextState (State.construct 16 4) = some (State.initial 16 4) := by decide

theorem witness_ConstructedEngineMeetsInv : nextState (State.construct 44 4) = some (State.initial 44 4) := by decide

theorem witness_EveryStepKeepsInv :
    (readyAt 16 2 16 1).Inv ∧ (nextState (exec (.writePrintable 0x41#8) (readyAt 16 2 16 1))).isSome = true ∧
      (nextState (step { readyAt 16 2 16 1 with pending := [[0x03#8, 0x41#8]] })).isSome = true :=
  ⟨readyAt_inv (by decide) (by decide) (by decide), by decide, by decide⟩

/-- From POWER_ON, from SHUTDOWN, and in READY, with either answer. -/
theorem witness_BeginHandshake :
    State.reset.Inv ∧ State.reset.init = .powerOn ∧ (readyAt 16 2 0 0).Inv ∧ (readyAt 16 2 0 0).init = .ready ∧
      setupAnswer (State.reset.answerSetup true) = true ∧ setupAnswer (State.reset.answerSetup false) = false :=
  ⟨reset_inv, rfl, readyAt_inv (by decide) (by decide) (by decide), rfl, rfl, rfl⟩

/-- The hypotheses of `ReadyOnly` and `InEveryState`, on which the command statements rest (EndShutsDown,
DisplayControlRequests, EntryModeRequests, ClearHomesAndSetsIncrement, ScrollRequests, TextModeRequests, BacklightRequests,
TabStepRequests, CursorGetAndHome, BelAndUnhandledCodes). -/
theorem witness_ReadyOnly :
    (readyAt 16 2 0 0).flt = 0x00#8 ∧ (readyAt 16 2 0 0).init = .ready ∧ State.reset.flt = 0x00#8 ∧
      State.reset.init ≠ .ready := by decide

theorem witness_OnlyBeginAndEndChangeInit :
    (nextState (exec .endReq (readyAt 16 2 0 0))).map State.init = some .shutdown := by decide

/-- The last cell, and the first column and the first row out of range, of a 16×2 engine. -/
theorem witness_CursorSetRequest :
    (readyAt 16 2 0 0).Inv ∧ (readyAt 16 2 0 0).flt = 0x00#8 ∧ (readyAt 16 2 0 0).init = .ready ∧
      (15#8 : Byte).toNat < (readyAt 16 2 0 0).w ∧ (1#8 : Byte).toNat < (readyAt 16 2 0 0).h ∧
      (readyAt 16 2 0 0).w ≤ (16#8 : Byte).toNat ∧ (readyAt 16 2 0 0).h ≤ (2#8 : Byte).toNat :=
  ⟨readyAt_inv (by decide) (by decide) (by decide), by decide⟩

theorem witness_CursorLaws :
    (readyAt 40 2 40 1).Inv ∧ (readyAt 40 2 40 1).Ready ∧ (39#8 : Byte).toNat < (readyAt 40 2 40 1).w ∧
      (1#8 : Byte).toNat < (readyAt 40 2 40 1).h ∧ (readyAt 40 2 40 1).w ≤ (40#8 : Byte).toNat :=
  ⟨readyAt_inv (by decide) (by decide) (by decide), readyAt_ready _ _ _ _, by decide⟩

/-- The classes' boundary bytes. -/
theorem witness_WriteRunsItsClass :
    (readyAt 16 2 0 0).Ready ∧ (0x06#8 : Byte).toNat ≤ 0x06 ∧ 0x0E ≤ (0x0E#8 : Byte).toNat ∧ (0x1F#8 : Byte).toNat ≤ 0x1F ∧
      0x20 ≤ (0x20#8 : Byte).toNat ∧ State.reset.flt = 0x00#8 ∧ State.reset.init ≠ .ready :=
  ⟨readyAt_ready _ _ _ _, by decide⟩

/-- At column 0, in a row, and on a full line: the text statements BackspaceErasesOneCell, TabMovesToTheNextStop,
CarriageReturnKeepsTheRow, LineFeedBlanksTheNextRow and PrintableByteAdvances (both its clauses). -/
theorem witness_text_statements :
    ((readyAt 16 2 0 1).Inv ∧ (readyAt 16 2 0 1).Ready) ∧ ((readyAt 16 2 5 0).Inv ∧ (readyAt 16 2 5 0).Ready) ∧
      ((readyAt 16 2 16 1).Inv ∧ (readyAt 16 2 16 1).Ready) ∧ (readyAt 16 2 15 0).cx < (readyAt 16 2 15 0).w ∧
      (readyAt 16 2 16 1).cx = (readyAt 16 2 16 1).w :=
  ⟨⟨readyAt_inv (by decide) (by decide) (by decide), readyAt_ready _ _ _ _⟩,
    ⟨readyAt_inv (by decide) (by decide) (by decide), readyAt_ready _ _ _ _⟩,
    ⟨readyAt_inv (by decide) (by decide) (by decide), readyAt_ready _ _ _ _⟩, by decide⟩

theorem witness_TextNeedsReady :
    State.reset.flt = 0x00#8 ∧ State.reset.init ≠ .ready ∧ (Instr.writePrintable 0x41#8).format = .txt := by decide

theorem witness_PrintCountsHandledBytes :
    let s := { readyAt 2 2 1 1 with pending := printFrames [0x41#8, 0x01#8, 0x0A#8] }
    s.Inv ∧ s.Ready ∧ s.pending = printFrames [0x41#8, 0x01#8, 0x0A#8] :=
  ⟨⟨by decide, rfl, rfl, by decide, by decide, .inr (.inl rfl), by decide, by decide, by decide, by decide⟩, ⟨rfl, rfl⟩, rfl⟩

theorem witness_FullLineThenWrap :
    let s := { readyAt 2 2 0 0 with pending := printFrames ([0x41#8, 0x42#8] ++ [0x43#8]) }
    s.Inv ∧ s.Ready ∧ s.cx = 0 ∧ s.cy + 1 < s.h ∧ [0x41#8, 0x42#8].length = s.w ∧
      (∀ b ∈ [0x41#8, 0x42#8], 0x20 ≤ b.toNat) ∧ 0x20 ≤ (0x43#8 : Byte).toNat :=
  ⟨⟨by decide, rfl, rfl, by decide, by decide, .inr (.inl rfl), by decide, by decide, by decide, by decide⟩, ⟨rfl, rfl⟩,
    by decide⟩

/-- Both sides of the identity's limit, in and out of READY. -/
theorem witness_SetCustomCharRequest :
    (readyAt 16 2 0 0).flt = 0x00#8 ∧ (readyAt 16 2 0 0).init = .ready ∧ (7#8 : Byte).toNat ≤ 7 ∧ 7 < (8#8 : Byte).toNat ∧
      State.reset.init ≠ .ready := by decide

theorem witness_GlyphBytesFillTheirSlot :
    (readyAt 16 2 0 0).Ready ∧ (7#8 : Byte).toNat ≤ 7 ∧
      (AddressCounter.mk .instruction true .ddram 0).dm = .instruction ∧
      (AddressCounter.mk .instruction false .ddram 0).dm = .instruction :=
  ⟨readyAt_ready _ _ _ _, by decide⟩

theorem witness_IdentitiesAreNeverShown :
    (7#8 : Byte).toNat ≤ 7 ∧ (nextState (exec (.write 7#8) (readyAt 16 2 0 0))).isSome = true := by decide

theorem witness_EmittedRowsAppendOneEvent :
    State.reset.flt = 0x00#8 ∧ State.reset.dm = .instruction ∧ ({ State.reset with dm := .data }).dm = .data := by decide

/-- An invariant-keeping state and a request that answers a next state there: OnlyTheEmittedSetIsSent,
RequestsEndInInstructionMode, WaitsAreWhereTheyAreNamed, MirrorsEqualTheDeviceRegisters, RegistersHaveOnlyTheirWriters,
ResponsesHaveTheirTypes. -/
theorem witness_every_request_statements :
    (readyAt 16 2 5 1).Inv ∧ (Instr.displayClear).isRequest = true ∧
      (nextState (exec .displayClear (readyAt 16 2 5 1))).map (fun t => (t.flt, t.dm)) = some (0x00#8, .instruction) :=
  ⟨readyAt_inv (by decide) (by decide) (by decide), by decide, by decide⟩

theorem witness_CursorFollowsTheAddressCounter :
    (readyAt 16 2 5 1).Inv ∧ (readyAt 16 2 5 1).mode = 0x06#8 ∧ (Instr.writeLf).isRequest = true ∧
      (nextState (exec .writeLf (readyAt 16 2 5 1))).isSome = true ∧
      Follows (readyAt 16 2 5 1) ⟨.instruction, true, .ddram, 69⟩ :=
  ⟨readyAt_inv (by decide) (by decide) (by decide), rfl, rfl, by decide, rfl, by decide, rfl, fun _ => by decide⟩

theorem witness_OnlyAPrintableByteFillsTheLine :
    (readyAt 16 2 15 0).Inv ∧ (nextState (exec (.write 0x20#8) (readyAt 16 2 15 0))).map (fun t => (t.cx, t.w)) = some (16, 16) :=
  ⟨readyAt_inv (by decide) (by decide) (by decide), by decide⟩

theorem witness_ShadowFlagsAreNeverSeen :
    SameButFlags (readyAt 16 2 5 1) { readyAt 16 2 5 1 with tm := .inverted, acsp := .cgram, bl := .off, bus8 := .eightBit } ∧
      (nextState (exec .writeBs (readyAt 16 2 5 1))).isSome = true :=
  ⟨rfl, by decide⟩

end Sys2Proof.Tests
end

