-- ==== Sys2Proof/Proofs/Scope.lean ====
section
/-! PROOFS. The scope of the engine's steps (00_scope.md): a step is exec of the decoded request with its observation, every
request answers a next state, an engine with no frame waits, and a row of the emitted formats appends its one event. -/

namespace Sys2Proof.Machine

/-! What the request decoder hands to exec. -/

theorem decodeBare_isRequest {op : Byte} {i : Instr} (h : decodeBare op = some i) : i.isRequest = true := by
  unfold decodeBare at h
  split at h <;> cases h <;> rfl

/-- The request decoder reads requests only (30_encoding.md rules R70, R86). -/
theorem decode_isRequest {bs rest : List Byte} {i : Instr} (h : decode bs = .instr i rest) : i.isRequest = true := by
  unfold decode at h
  split at h
  · cases h
  · split_ifs at h
    case neg =>
      split at h <;> cases h
      · exact decodeBare_isRequest ‹_›
      · rfl
    all_goals (split at h <;> cases h; rfl)

/-! Steps. -/

theorem recordObservation_of_response {t : State} {r : Response} (h : t.response = some r) :
    recordObservation t = { t with observed := t.observed ++ [⟨r, t.tr⟩] } := by simp [recordObservation, h]

theorem recordObservation_of_no_response {t : State} (h : t.response = none) : recordObservation t = t := by
  simp [recordObservation, h]

theorem step_of_no_frame {s : State} (hf : s.flt = 0x00#8) (hp : s.pending = []) : step s = .next s := by
  simp [step, takeStep, unlessFaulted_of_running hf, hp]

theorem step_of_frame {s : State} {frame : List Byte} {frames : List (List Byte)} (hf : s.flt = 0x00#8)
    (hp : s.pending = frame :: frames) : step s = recordResult (takeFrame frame frames s) := by
  simp [step, takeStep, unlessFaulted_of_running hf, hp]

theorem takeFrame_of_instr {frame left : List Byte} {i : Instr} (hd : decode frame = .instr i left)
    (frames : List (List Byte)) (s : State) :
    takeFrame frame frames s = exec i { s with pending := framesAfter left frames } := by simp [takeFrame, hd]

theorem takeFrame_of_truncated {frame : List Byte} (hd : decode frame = .truncated) (frames : List (List Byte))
    (s : State) : takeFrame frame frames s = truncatedRequest { s with pending := frames } := by simp [takeFrame, hd]

theorem framesAfter_eq_ite (left : List Byte) (frames : List (List Byte)) :
    framesAfter left frames = if left = [] then frames else left :: frames := by
  cases left <;> simp [framesAfter]

/-! Every request and every step of an engine not faulted answers a next state. -/

theorem exec_request_next {s : State} {i : Instr} (hf : s.flt = 0x00#8) (hi : i.isRequest = true) :
    ∃ t, exec i s = .next t := by
  obtain ⟨hbody, hfault⟩ := exec_request hf i hi
  by_cases hp : Performs i s
  · exact ⟨_, hbody hp⟩
  · exact ⟨_, hfault hp⟩

theorem takeFrame_next {s : State} (hf : s.flt = 0x00#8) (frame : List Byte) (frames : List (List Byte)) :
    ∃ t, takeFrame frame frames s = .next t := by
  cases hd : decode frame with
  | instr i left =>
    rw [takeFrame_of_instr hd]
    exact exec_request_next (s := { s with pending := framesAfter left frames }) hf (decode_isRequest hd)
  | truncated =>
    rw [takeFrame_of_truncated hd]
    exact ⟨_, faultRequest_of_running (s := { s with pending := frames }) hf _⟩

theorem step_next {s : State} (hf : s.flt = 0x00#8) : ∃ t, step s = .next t := by
  cases hp : s.pending with
  | nil => exact ⟨s, step_of_no_frame hf hp⟩
  | cons frame frames =>
    obtain ⟨t, ht⟩ := takeFrame_next hf frame frames
    exact ⟨recordObservation t, by rw [step_of_frame hf hp, ht, recordResult]⟩

/-- Settles O7: a request performs its body or raises its fault, and what a frame decodes to is a request. -/
theorem everyRequestAnswersANextState : Obligations.EveryRequestAnswersANextState :=
  fun _ hf => ⟨step_next hf, fun _ hi => exec_request_next hf hi⟩

/-- Settles O5: the decoded request answers a next state, and the step is that state with its observation recorded. -/
theorem stepRunsTheDecodedRequest : Obligations.StepRunsTheDecodedRequest := by
  intro s frame left frames i hf hp hd s'
  obtain ⟨t, ht⟩ : ∃ t, exec i s' = .next t := exec_request_next (s := s') hf (decode_isRequest hd)
  have hstep : step s = .next (recordObservation t) := by
    rw [step_of_frame hf hp, takeFrame_of_instr hd, framesAfter_eq_ite, ht, recordResult]
  refine ⟨t, ht, fun r hr => ?_, fun hr => ?_⟩
  · rw [hstep, recordObservation_of_response hr]
  · rw [hstep, recordObservation_of_no_response hr]

/-- Settles O6: the step of an engine with no frame to take. -/
theorem idleEngineWaits : Obligations.IdleEngineWaits := fun _ hf hp => step_of_no_frame hf hp

/-! The rows CMD, NIB and DATA: each is one emission of its row's byte, in the data mode it requires. -/

theorem emitInEitherMode_nib {s : State} (hf : s.flt = 0x00#8) (v : Nibble) :
    emitInEitherMode s (nib v) = .next { s with tr := s.tr ++ [.nibble v] } := unlessFaulted_of_running hf _

theorem emitInInstructionMode_cmd {s : State} (hf : s.flt = 0x00#8) (b : Byte) :
    (s.dm = .instruction → emitInInstructionMode s (cmd b) = .next { s with tr := s.tr ++ [.byte b] }) ∧
      (s.dm ≠ .instruction → emitInInstructionMode s (cmd b) = .refused .needsInstructionMode) := by
  constructor <;> intro hm <;> simp [emitInInstructionMode, unlessFaulted_of_running hf, hm, emit]

theorem emitInDataMode_dat {s : State} (hf : s.flt = 0x00#8) (d : Byte) :
    (s.dm = .data → emitInDataMode s (dat d) = .next { s with tr := s.tr ++ [.byte d] }) ∧
      (s.dm ≠ .data → emitInDataMode s (dat d) = .refused .needsDataMode) := by
  constructor <;> intro hm <;> simp [emitInDataMode, unlessFaulted_of_running hf, hm, emit]

/-- A row of format CMD is `cmd` of its row's byte. -/
theorem exec_of_format_cmd {i : Instr} (hi : i.format = .cmd) (s : State) :
    exec i s = emitInInstructionMode s (cmd (rowByte i)) := by
  cases i <;> cases hi <;> rfl

theorem exec_command {s : State} (hf : s.flt = 0x00#8) {i : Instr} {b : Byte} (hi : i.format = .cmd)
    (hb : rowByte i = b) :
    (s.dm = .instruction → exec i s = .next { s with tr := s.tr ++ [.byte b] }) ∧
      (s.dm ≠ .instruction → exec i s = .refused .needsInstructionMode) := by
  rw [exec_of_format_cmd hi, hb]
  exact emitInInstructionMode_cmd hf b

/-! The bytes of the rows that carry bits, as the bit patterns of 30_encoding.md rules R76 to R78. -/

theorem rowByte_entryModeSet (i sh : BitVec 1) : rowByte (.entryModeSet i sh) = 0b000001#6 ++ i ++ sh := by
  decide +revert

theorem rowByte_displayControl (d c b : BitVec 1) : rowByte (.displayControl d c b) = 0b00001#5 ++ d ++ c ++ b := by
  decide +revert

theorem rowByte_functionSet (l : BitVec 1) : rowByte (.functionSet l) = 0b001#3 ++ l ++ 0b1000#4 := by
  decide +revert

theorem rowByte_setCgramAddr (a : BitVec 3) : rowByte (.setCgramAddr a) = 0b01#2 ++ a ++ 0b000#3 := by
  decide +revert

theorem rowByte_setDdramAddr (a : BitVec 7) : rowByte (.setDdramAddr a) = 0b1#1 ++ a := by
  decide +revert

/-- Settles O42, row by row: `cmd`, `nib` or `dat` of the byte whose bits the row gives. -/
theorem emittedRowsAppendOneEvent : Obligations.EmittedRowsAppendOneEvent := by
  intro s hf row command
  have hcommand {i : Instr} {b : Byte} (hi : i.format = .cmd) (hb : rowByte i = b) : command i b :=
    exec_command hf hi hb
  exact ⟨hcommand rfl rfl, hcommand rfl rfl, fun i sh => hcommand rfl (rowByte_entryModeSet i sh),
    fun d c b => hcommand rfl (rowByte_displayControl d c b), hcommand rfl rfl, hcommand rfl rfl,
    fun l => hcommand rfl (rowByte_functionSet l), hcommand rfl rfl, fun a => hcommand rfl (rowByte_setCgramAddr a),
    fun a => hcommand rfl (rowByte_setDdramAddr a), emitInEitherMode_nib hf _, emitInEitherMode_nib hf _,
    fun d => emitInDataMode_dat hf d⟩

end Sys2Proof.Machine
end

