-- ==== Sys2Proof/Proofs/State.lean ====
section
/-! PROOFS. The engine state (10_state.md): what each request does to the registers and the trace, and from it the invariant,
the writers of the registers, the full line, the data mode, the mirrors, the cursor, and the flags that are never seen. -/

namespace Sys2Proof.Machine

/-! What the operations of the requests make of the state, each as one record update. -/

/-- The cell a backspace moves to (44_text_stream.md rule R152). -/
theorem backspace_cell {w h x y : Nat} (hw : 0 < w) (hx : x ≤ w) (hy : y < h) :
    clampCell w h ((x : Int) - 1) y = (x - 1, if x = 0 then 0 else y) := by
  by_cases h0 : x = 0
  · rw [clampCell_out_of_range (by omega)]
    simp [h0]
  · rw [show ((x : Int) - 1) = ((x - 1 : Nat) : Int) by omega, clampCell_in_range (by omega) hy, if_neg h0]

/-- What BS does before it responds (44_text_stream.md rule R152). -/
def backspaceOp (s : State) : State :=
  let s := printOp spaceChar (cursorSetOp ((s.cx : Int) - 1) s.cy s)
  cursorSetOp ((s.cx : Int) - 1) s.cy s

theorem State.Inv.backspace_column {s : State} (hI : s.Inv) : s.cx - 1 < s.w := by
  have := hI.width_pos
  have := hI.cx
  omega

theorem State.Inv.backspace_row {s : State} (hI : s.Inv) : (if s.cx = 0 then 0 else s.cy) < s.h := by
  split <;> [exact hI.height_pos; exact hI.cy]

/-- A backspace sends the address of its cell, a space in data mode, and the address again. -/
theorem backspaceOp_eq {s : State} (hI : s.Inv) :
    let y := if s.cx = 0 then 0 else s.cy
    let address : Event := .byte (setDdramByte (ddramAddr s.offset (s.cx - 1) y))
    backspaceOp s =
      { s with
        cx := s.cx - 1, cy := y, acsp := .ddram, dm := .instruction
        tr := s.tr ++ [address, .mode .data, .byte spaceChar, .mode .instruction, address] } := by
  have hx := hI.backspace_column
  have hy := hI.backspace_row
  have hcell := backspace_cell hI.width_pos hI.cx hI.cy
  generalize (if s.cx = 0 then 0 else s.cy) = y at hy hcell
  have hprint := printOp_of_not_full (s := moveTo (s.cx - 1, y) s) hx.ne spaceChar
  simp only [backspaceOp, cursorSetOp, hcell, hprint]
  simp [clampCell_in_range hx hy, moveTo, emit]

/-- SET_CUSTOM_CHAR sends the slot's address, and the bitmap between its mode changes (45_custom_char.md rule R170). -/
theorem setCustomCharOp_eq (id : Byte) (bitmap : List Byte) (s : State) :
    setCustomCharOp id bitmap s =
      { s with
        dm := .instruction, acsp := .cgram
        tr := s.tr ++ [.byte (setCgramByte id), .mode .data] ++ bitmap.map .byte ++ [.mode .instruction] } := by
  simp [setCustomCharOp, datAll_eq, setMode, emit]

/-- The events of the bootstrap for the transport's answer `q` (41_initialization.md rules R101, R102). -/
def bootstrapEvents (q : Bool) : List Event :=
  if q then [.byte fs8]
  else
    [.nibble (highNibble fs8), .wait .initLong, .nibble (highNibble fs8), .wait .initShort, .nibble (highNibble fs8),
      .wait .initShort, .nibble (highNibble fs4), .wait .initShort]

/-- FUNC after the bootstrap (41_initialization.md rules R101, R102). -/
def bootstrapFunc (q : Bool) (func : Byte) : Byte := if q then setBit func 4 else clearBit func 4

/-- The whole effect of BEGIN (41_initialization.md rule R100). -/
theorem beginOp_eq (q : Bool) (s : State) :
    beginOp q s =
      { s with
        init := .ready, bus8 := busReport q, func := bootstrapFunc q s.func, tm := .normal, cx := 0, cy := 0
        mode := setBit s.mode 1, acsp := .ddram, cntl := setBit s.cntl 2, bl := .on
        tr := s.tr ++ [.setup, .wait .powerOn] ++ bootstrapEvents q ++
          [.byte (bootstrapFunc q s.func), .byte s.cntl, .byte 0x01#8, .wait .longExec, .byte (setBit s.cntl 2),
            .backlight true]
        response := some (.bool true), setupAnswers := s.setupAnswers.tail, draws := s.draws + 1 } := by
  cases q <;>
    simp [beginOp, bootstrap8Op, bootstrap4Op, bootstrapEvents, bootstrapFunc, setup, emit, displayClearOp, displayOnOp,
      setBitOp_cntl, backlight, respond]

/-! The legal values of the mirrors (10_state.md rules R23 to R25), as the invariant lists them. -/

abbrev modeBytes : List Byte := [0x04#8, 0x05#8, 0x06#8, 0x07#8]
abbrev cntlBytes : List Byte := [0x08#8, 0x09#8, 0x0A#8, 0x0B#8, 0x0C#8, 0x0D#8, 0x0E#8, 0x0F#8]
abbrev funcBytes : List Byte := [0x28#8, 0x38#8]

theorem setBit_mem_modeBytes : ∀ v ∈ modeBytes, ∀ k < 2, setBit v k ∈ modeBytes := by decide
theorem clearBit_mem_modeBytes : ∀ v ∈ modeBytes, ∀ k < 2, clearBit v k ∈ modeBytes := by decide
theorem setBit_mem_cntlBytes : ∀ v ∈ cntlBytes, ∀ k < 3, setBit v k ∈ cntlBytes := by decide
theorem clearBit_mem_cntlBytes : ∀ v ∈ cntlBytes, ∀ k < 3, clearBit v k ∈ cntlBytes := by decide
theorem bootstrapFunc_mem_funcBytes : ∀ q, ∀ v ∈ funcBytes, bootstrapFunc q v ∈ funcBytes := by decide

/-! The writers of the registers, as their own rules name them (10_state.md rule R22). -/

def modeWriters : List Instr :=
  [.beginReq, .displayClear, .entryLeftToRight, .entryRightToLeft, .entryShiftOn, .entryShiftOff, .writeFf, .write 0x0C#8]
def cntlWriters : List Instr :=
  [.beginReq, .endReq, .displayOn, .displayOff, .cursorUnderlineOn, .cursorUnderlineOff, .cursorBlinkOn, .cursorBlinkOff]
def tmWriters : List Instr := [.beginReq, .textNormalMode, .textInvertedMode, .writeBel, .write 0x07#8]
def blWriters : List Instr := [.beginReq, .backlightOn, .backlightOff]

/-- The writers of the cursor. -/
def MovesCursor (i : Instr) : Prop :=
  i ∈ [.beginReq, .displayClear, .cursorHome, .writeBs, .writeHt, .writeLf, .writeFf, .writeCr] ∨
    (∃ x y, i = .cursorSet x y) ∨ (∃ c, i = .writePrintable c) ∨
    ∃ c, i = .write c ∧ streamClass c ∉ [.bel, .ctlOther]

/-- A request that writes the printable byte `c`. -/
def Prints (i : Instr) (c : Byte) : Prop := i = .writePrintable c ∨ (i = .write c ∧ 0x20 ≤ c.toNat)

/-! What a request can do. -/

/-- The effect of a request that performs its body, response aside, and which requests have it: the state it begins in, its
trace empty, and the state it ends in. -/
inductive Effect (i : Instr) (s : State) : State → Prop
  | quiet : Effect i s s
  | textMode (m : TextMode) (hi : i ∈ tmWriters) : Effect i s { s with tm := m }
  | tabStep (v : Byte) (hv : v ≠ 0x00#8) (hi : i = .tabStepSet v) : Effect i s { s with tab := v }
  | scroll (b : Byte) (hb : b = 0x18#8 ∨ b = 0x1C#8) : Effect i s (cmd b s)
  | backlight (on : Bool) (hi : i ∈ blWriters) : Effect i s (backlight on s)
  | flushMode (v : Byte) (hv : s.mode ∈ modeBytes → v ∈ modeBytes) (hi : i ∈ modeWriters) :
    Effect i s (cmd v { s with mode := v })
  | flushCntl (v : Byte) (hv : s.cntl ∈ cntlBytes → v ∈ cntlBytes) (hi : i ∈ cntlWriters) :
    Effect i s (cmd v { s with cntl := v })
  | shutdown (hi : i = .endReq) : Effect i s { clearBitOp .cntl 2 s with init := .shutdown }
  | clear (hm : MovesCursor i) (hi : i ∈ modeWriters) : Effect i s (displayClearOp s)
  | home (hm : MovesCursor i) : Effect i s (cursorHomeOp s)
  | move (x y : Int) (hm : MovesCursor i) : Effect i s (cursorSetOp x y s)
  | backspace (hm : MovesCursor i) : Effect i s (backspaceOp s)
  | linefeed (hm : MovesCursor i) : Effect i s (linefeedOp s)
  | print (c : Byte) (hm : MovesCursor i) (hi : Prints i c) : Effect i s (printOp c s)
  | glyph (id b0 b1 b2 b3 b4 b5 b6 b7 : Byte) (hid : id.toNat ≤ 7) (hi : i = .setCustomChar id b0 b1 b2 b3 b4 b5 b6 b7) :
    Effect i s (setCustomCharOp id [b0, b1, b2, b3, b4, b5, b6, b7] s)
  | handshake (q : Bool) (hi : i = .beginReq) : Effect i s (beginOp q s)

theorem streamClass_eq_bel {c : Byte} (h : streamClass c = .bel) : c = 0x07#8 := by decide +revert
theorem streamClass_eq_ff {c : Byte} (h : streamClass c = .ff) : c = 0x0C#8 := by decide +revert
theorem streamClass_eq_printable {c : Byte} (h : streamClass c = .printable) : 0x20 ≤ c.toNat := by decide +revert

theorem movesCursor_write {c : Byte} {k : StreamClass} (h : streamClass c = k) (hk : k ∉ [.bel, .ctlOther]) :
    MovesCursor (.write c) := .inr (.inr (.inr ⟨c, rfl, h ▸ hk⟩))

/-- The effect of WRITE, by the class of its byte. -/
theorem write_effect (c : Byte) (s : State) :
    ∃ r u, Effect (.write c) s u ∧ classBody c (streamClass c) s = respond r u := by
  cases hk : streamClass c
  case bel => exact ⟨_, _, .textMode _ (by simp [tmWriters, streamClass_eq_bel hk]), rfl⟩
  case bs => exact ⟨_, _, .backspace (movesCursor_write hk (by decide)), rfl⟩
  case ht => exact ⟨_, _, .move _ _ (movesCursor_write hk (by decide)), rfl⟩
  case lf => exact ⟨_, _, .linefeed (movesCursor_write hk (by decide)), rfl⟩
  case ff =>
    exact ⟨_, _, .clear (movesCursor_write hk (by decide)) (by simp [modeWriters, streamClass_eq_ff hk]), rfl⟩
  case cr => exact ⟨_, _, .move _ _ (movesCursor_write hk (by decide)), rfl⟩
  case ctlOther => exact ⟨_, _, .quiet, rfl⟩
  case printable =>
    exact ⟨_, _, .print c (movesCursor_write hk (by decide)) (.inr ⟨rfl, streamClass_eq_printable hk⟩), rfl⟩

/-- Every request that performs its body has one of the effects, and then responds. -/
theorem body_effect {i : Instr} {s s' : State} (hi : i.isRequest = true) (hp : Performs i s') :
    ∃ r u, Effect i s u ∧ body i s = respond r u := by
  cases i
  case write c => exact write_effect c s
  case beginReq => exact ⟨.bool true, _, .handshake (setupAnswer s) rfl, rfl⟩
  case endReq => exact ⟨_, _, .shutdown rfl, rfl⟩
  case cursorSet x y => exact ⟨_, _, .move _ _ (.inr (.inl ⟨x, y, rfl⟩)), rfl⟩
  case cursorHome => exact ⟨_, _, .home (.inl (by simp)), rfl⟩
  case displayClear => exact ⟨_, _, .clear (.inl (by simp)) (by simp [modeWriters]), rfl⟩
  case displayOn | cursorUnderlineOn | cursorBlinkOn =>
    exact ⟨_, _, .flushCntl _ (fun h => setBit_mem_cntlBytes _ h _ (by decide)) (by simp [cntlWriters]), rfl⟩
  case displayOff | cursorUnderlineOff | cursorBlinkOff =>
    exact ⟨_, _, .flushCntl _ (fun h => clearBit_mem_cntlBytes _ h _ (by decide)) (by simp [cntlWriters]), rfl⟩
  case entryLeftToRight | entryShiftOn =>
    exact ⟨_, _, .flushMode _ (fun h => setBit_mem_modeBytes _ h _ (by decide)) (by simp [modeWriters]), rfl⟩
  case entryRightToLeft | entryShiftOff =>
    exact ⟨_, _, .flushMode _ (fun h => clearBit_mem_modeBytes _ h _ (by decide)) (by simp [modeWriters]), rfl⟩
  case backlightOn | backlightOff => exact ⟨_, _, .backlight _ (by simp [blWriters]), rfl⟩
  case displayScrollLeft => exact ⟨_, _, .scroll _ (.inl rfl), rfl⟩
  case displayScrollRight => exact ⟨_, _, .scroll _ (.inr rfl), rfl⟩
  case setCustomChar id b0 b1 b2 b3 b4 b5 b6 b7 => exact ⟨_, _, .glyph id b0 b1 b2 b3 b4 b5 b6 b7 hp.2 rfl, rfl⟩
  case textNormalMode | textInvertedMode | writeBel => exact ⟨_, _, .textMode _ (by simp [tmWriters]), rfl⟩
  case cursorGet | tabStepGet | writeCtlOther => exact ⟨_, _, .quiet, rfl⟩
  case tabStepSet v => exact ⟨_, _, .tabStep v hp rfl, rfl⟩
  case writeBs => exact ⟨_, _, .backspace (.inl (by simp)), rfl⟩
  case writeHt | writeCr => exact ⟨_, _, .move _ _ (.inl (by simp)), rfl⟩
  case writeLf => exact ⟨_, _, .linefeed (.inl (by simp)), rfl⟩
  case writeFf => exact ⟨_, _, .clear (.inl (by simp)) (by simp [modeWriters]), rfl⟩
  case writePrintable c => exact ⟨_, _, .print c (.inr (.inr (.inl ⟨c, rfl⟩))) (.inl rfl), rfl⟩
  case reserved => exact hp.elim
  all_goals exact absurd (show false = true from hi) (by decide)

/-- Everything a request can answer with a next state: a fault, or an effect on the state with an empty trace, and a
response. -/
theorem exec_request_effect {s t : State} {i : Instr} (hi : i.isRequest = true) (h : exec i s = .next t) :
    (∃ c, t = raiseFault c s) ∨ ∃ r u, Effect i (startRequest s) u ∧ t = respond r u := by
  obtain ⟨-, ⟨hp, rfl⟩ | ⟨-, rfl⟩⟩ := exec_request_cases hi h
  · exact .inr (body_effect hi hp)
  · exact .inl ⟨_, rfl⟩

/-! The invariant (10_state.md rule R38). -/

theorem State.initial_inv {w h : Nat} (hg : geometryAdmitted w h = true) : (State.initial w h).Inv where
  geometry := hg
  offset := rfl
  dm := rfl
  cy := (geometryAdmitted_iff.1 hg).1
  cx := Nat.zero_le w
  init := .inl rfl
  mode := (by decide : 0x06#8 ∈ modeBytes)
  cntl := (by decide : 0x08#8 ∈ cntlBytes)
  func := (by decide : 0x28#8 ∈ funcBytes)
  tab := (by decide : Config.tabReset ≠ 0x00#8)

/-- Settles O14: construction answers a state for an admitted geometry only, and every such state meets the invariant. -/
theorem constructedEngineMeetsInv : Obligations.ConstructedEngineMeetsInv := by
  refine ⟨fun w h s hs => ?_, State.initial_inv (by decide)⟩
  unfold State.construct at hs
  split at hs
  case isTrue hg =>
    cases hs
    exact State.initial_inv hg
  case isFalse => cases hs

section
variable {s : State} (hI : s.Inv)
include hI

theorem State.Inv.emit (e : Event) : (emit e s).Inv := { hI with }
theorem State.Inv.startRequest : (startRequest s).Inv := { hI with }
theorem State.Inv.respond (r : Response) : (respond r s).Inv := { hI with }
theorem State.Inv.raiseFault (c : FaultCode) : (raiseFault c s).Inv := { hI with }

theorem State.Inv.moveTo {p : Nat × Nat} (hx : p.1 < s.w) (hy : p.2 < s.h) : (moveTo p s).Inv :=
  { hI with cx := hx.le, cy := hy }

theorem State.Inv.clamped (x y : Int) : (clampCell s.w s.h x y).1 < s.w ∧ (clampCell s.w s.h x y).2 < s.h :=
  clampCell_is_cell hI.width_pos hI.height_pos x y

theorem State.Inv.cursorSetOp (x y : Int) : (cursorSetOp x y s).Inv := hI.moveTo (hI.clamped x y).1 (hI.clamped x y).2

/-- The row a line feed goes to is a row of the display. -/
theorem State.Inv.linefeed_row : (if s.cy + 1 < s.h then s.cy + 1 else 0) < s.h := by
  split <;> [assumption; exact hI.height_pos]

theorem State.Inv.linefeedOp : (linefeedOp s).Inv := by
  rw [linefeedOp_eq hI.width_pos hI.height_pos]
  exact { hI with dm := rfl, cx := Nat.zero_le _, cy := hI.linefeed_row }

theorem State.Inv.linefeedOp_cx : (Machine.linefeedOp s).cx = 0 := by
  rw [linefeedOp_eq hI.width_pos hI.height_pos]

theorem State.Inv.printOp (c : Byte) : (printOp c s).Inv := by
  by_cases hfull : s.cx = s.w
  · rw [printOp_of_full hfull]
    exact { hI.linefeedOp with dm := rfl, cx := hI.linefeedOp_cx ▸ hI.linefeedOp.width_pos }
  · rw [printOp_of_not_full hfull]
    exact { hI with dm := rfl, cx := Nat.lt_of_le_of_ne hI.cx hfull }

theorem State.Inv.backspaceOp : (backspaceOp s).Inv := ((hI.cursorSetOp _ _).printOp _).cursorSetOp _ _

end

/-- Every effect keeps the invariant. -/
theorem Effect.inv {i : Instr} {s t : State} (h : Effect i s t) (hI : s.Inv) : t.Inv := by
  cases h with
  | quiet => exact hI
  | textMode => exact { hI with }
  | tabStep v hv => exact { hI with tab := hv }
  | scroll => exact hI.emit _
  | backlight => exact { hI with }
  | flushMode v hv => exact { hI with mode := hv hI.mode }
  | flushCntl v hv => exact { hI with cntl := hv hI.cntl }
  | shutdown => exact { hI with cntl := clearBit_mem_cntlBytes _ hI.cntl 2 (by decide), init := .inr (.inr rfl) }
  | clear =>
    exact { hI with cx := Nat.zero_le _, cy := hI.height_pos, mode := setBit_mem_modeBytes _ hI.mode 1 (by decide) }
  | home => exact { hI with cx := Nat.zero_le _, cy := hI.height_pos }
  | move x y => exact hI.cursorSetOp x y
  | backspace => exact hI.backspaceOp
  | linefeed => exact hI.linefeedOp
  | print c => exact hI.printOp c
  | glyph =>
    rw [setCustomCharOp_eq]
    exact { hI with dm := rfl }
  | handshake q =>
    rw [beginOp_eq]
    exact { hI with
      cx := Nat.zero_le _, cy := hI.height_pos, init := .inr (.inl rfl)
      mode := setBit_mem_modeBytes _ hI.mode 1 (by decide)
      cntl := setBit_mem_cntlBytes _ hI.cntl 2 (by decide)
      func := bootstrapFunc_mem_funcBytes q _ hI.func }

theorem exec_inv {s t : State} {i : Instr} (hI : s.Inv) (h : exec i s = .next t) : t.Inv := by
  cases hi : i.isRequest with
  | true =>
    obtain ⟨c, rfl⟩ | ⟨r, u, hu, rfl⟩ := exec_request_effect hi h
    · exact hI.raiseFault c
    · exact (hu.inv hI.startRequest).respond r
  | false =>
    obtain ⟨-, ⟨e, rfl⟩, -⟩ := exec_emitted_cases hi h
    exact hI.emit e

theorem takeFrame_inv {s t : State} {frame : List Byte} {frames : List (List Byte)} (hI : s.Inv)
    (h : takeFrame frame frames s = .next t) : t.Inv := by
  cases hd : decode frame with
  | instr i left =>
    rw [takeFrame_of_instr hd] at h
    exact exec_inv (s := { s with pending := framesAfter left frames }) { hI with } h
  | truncated =>
    rw [takeFrame_of_truncated hd] at h
    obtain ⟨-, rfl⟩ := faultRequest_cases h
    exact State.Inv.raiseFault (s := { s with pending := frames }) { hI with } _

theorem recordObservation_inv {s : State} (hI : s.Inv) : (recordObservation s).Inv := by
  unfold recordObservation
  split <;> exact { hI with }

theorem step_inv {s t : State} (hI : s.Inv) (h : step s = .next t) : t.Inv := by
  have hf : s.flt = 0x00#8 := (unlessFaulted_next_iff.1 h).1
  cases hp : s.pending with
  | nil =>
    rw [step_of_no_frame hf hp] at h
    cases h
    exact hI
  | cons frame frames =>
    rw [step_of_frame hf hp] at h
    cases hr : takeFrame frame frames s with
    | next u =>
      rw [hr] at h
      cases h
      exact recordObservation_inv (takeFrame_inv hI hr)
    | fault => rw [hr] at h; cases h
    | refused => rw [hr] at h; cases h

/-- Settles O15: every effect of a request, every fault, every emitted row and the taking of a frame keep the invariant. -/
theorem everyStepKeepsInv : Obligations.EveryStepKeepsInv := fun _ _ hI => ⟨step_inv hI, fun _ => exec_inv hI⟩

/-! The writers of the registers (10_state.md rules R22 to R29). -/

/-- The registers of `t` that differ from those of `s` are ones that `i` is a writer of, and `t` is not faulted anew. -/
structure OnlyWriters (i : Instr) (s t : State) : Prop where
  frame : t.w = s.w ∧ t.h = s.h ∧ t.offset = s.offset ∧ t.dm = s.dm ∧ t.pending = s.pending ∧ t.observed = s.observed
  mode : t.mode ≠ s.mode → i ∈ modeWriters
  cntl : t.cntl ≠ s.cntl → i ∈ cntlWriters
  init : t.init ≠ s.init → i = .beginReq ∨ i = .endReq
  flt : t.flt = s.flt
  handshake : t.func ≠ s.func ∨ t.bus8 ≠ s.bus8 ∨ t.setupAnswers ≠ s.setupAnswers ∨ t.draws ≠ s.draws → i = .beginReq
  tm : t.tm ≠ s.tm → i ∈ tmWriters
  tab : t.tab ≠ s.tab → ∃ v, i = .tabStepSet v
  bl : t.bl ≠ s.bl → i ∈ blWriters
  cursor : t.cx ≠ s.cx ∨ t.cy ≠ s.cy → MovesCursor i
  acsp : t.acsp ≠ s.acsp →
    MovesCursor i ∨ ∃ id b0 b1 b2 b3 b4 b5 b6 b7, i = .setCustomChar id b0 b1 b2 b3 b4 b5 b6 b7

theorem OnlyWriters.refl (i : Instr) (s : State) : OnlyWriters i s s where
  frame := ⟨rfl, rfl, rfl, rfl, rfl, rfl⟩
  mode h := absurd rfl h
  cntl h := absurd rfl h
  init h := absurd rfl h
  flt := rfl
  handshake h := by simp at h
  tm h := absurd rfl h
  tab h := absurd rfl h
  bl h := absurd rfl h
  cursor h := by simp at h
  acsp h := absurd rfl h

/-- Moving the cursor, with what is sent for it, writes the cursor and ACSP alone. -/
theorem OnlyWriters.of_moves {i : Instr} (hm : MovesCursor i) {s : State} (hd : s.dm = .instruction) (x y : Nat)
    (a : AddressSpace) (tr : List Event) :
    OnlyWriters i s { s with cx := x, cy := y, acsp := a, dm := .instruction, tr := tr } :=
  { OnlyWriters.refl i s with
    frame := ⟨rfl, rfl, rfl, hd.symm, rfl, rfl⟩, cursor := fun _ => hm, acsp := fun _ => .inl hm }

theorem Effect.onlyWriters {i : Instr} {s t : State} (h : Effect i s t) (hI : s.Inv) : OnlyWriters i s t := by
  have same := OnlyWriters.refl i s
  have moves (hm : MovesCursor i) := OnlyWriters.of_moves hm hI.dm
  cases h with
  | quiet => exact same
  | textMode _ hi => exact { same with tm := fun _ => hi }
  | tabStep v _ hi => exact { same with tab := fun _ => ⟨v, hi⟩ }
  | scroll => exact { same with }
  | backlight _ hi => exact { same with bl := fun _ => hi }
  | flushMode _ _ hi => exact { same with mode := fun _ => hi }
  | flushCntl _ _ hi => exact { same with cntl := fun _ => hi }
  | shutdown hi => exact { same with cntl := fun _ => hi ▸ by simp [cntlWriters], init := fun _ => .inr hi }
  | clear hm hi => exact { same with mode := fun _ => hi, cursor := fun _ => hm, acsp := fun _ => .inl hm }
  | home hm => exact { same with cursor := fun _ => hm, acsp := fun _ => .inl hm }
  | move _ _ hm => exact { same with cursor := fun _ => hm, acsp := fun _ => .inl hm }
  | backspace hm =>
    rw [backspaceOp_eq hI]
    exact moves hm ..
  | linefeed hm =>
    rw [linefeedOp_eq hI.width_pos hI.height_pos]
    exact moves hm ..
  | print c hm =>
    by_cases hfull : s.cx = s.w
    · rw [printOp_of_full hfull, linefeedOp_eq hI.width_pos hI.height_pos]
      exact moves hm ..
    · rw [printOp_of_not_full hfull]
      exact moves hm _ s.cy s.acsp _
  | glyph id b0 b1 b2 b3 b4 b5 b6 b7 _ hi =>
    rw [setCustomCharOp_eq]
    exact { same with
      frame := ⟨rfl, rfl, rfl, hI.dm.symm, rfl, rfl⟩, acsp := fun _ => .inr ⟨id, b0, b1, b2, b3, b4, b5, b6, b7, hi⟩ }
  | handshake q hi =>
    rw [beginOp_eq, hi]
    have hm : MovesCursor .beginReq := .inl (by simp)
    exact { OnlyWriters.refl .beginReq s with
      mode := fun _ => by simp [modeWriters], cntl := fun _ => by simp [cntlWriters], init := fun _ => .inl rfl
      handshake := fun _ => rfl, tm := fun _ => by simp [tmWriters], bl := fun _ => by simp [blWriters]
      cursor := fun _ => hm, acsp := fun _ => .inl hm }

/-- Every instruction that does not fault writes only registers it is a writer of. -/
theorem exec_onlyWriters {s t : State} {i : Instr} (hI : s.Inv) (h : exec i s = .next t) :
    (i.isRequest = true ∧ ∃ c, t = raiseFault c s) ∨ OnlyWriters i s t := by
  cases hi : i.isRequest with
  | true =>
    obtain hfault | ⟨r, u, hu, rfl⟩ := exec_request_effect hi h
    · exact .inl ⟨rfl, hfault⟩
    · exact .inr { hu.onlyWriters hI.startRequest with }
  | false =>
    obtain ⟨-, ⟨e, rfl⟩, -⟩ := exec_emitted_cases hi h
    exact .inr { OnlyWriters.refl i s with }

/-- Settles O50: a fault writes FLT alone, and every effect has its writers. -/
theorem registersHaveOnlyTheirWriters : Obligations.RegistersHaveOnlyTheirWriters := by
  intro s t i hI h
  obtain ⟨hi, c, rfl⟩ | hw := exec_onlyWriters hI h
  · have hw := OnlyWriters.refl i s
    exact ⟨hw.frame, hw.mode, hw.cntl, hw.init, fun _ => ⟨hi, rfl⟩, hw.handshake, hw.tm, hw.tab, hw.bl, hw.cursor, hw.acsp⟩
  · exact ⟨hw.frame, hw.mode, hw.cntl, hw.init, fun hne => absurd hw.flt hne, hw.handshake, hw.tm, hw.tab, hw.bl, hw.cursor,
      hw.acsp⟩

/-! The full line (10_state.md rule R27). -/

/-- An effect that leaves the cursor past the last column left it where it was, or printed. -/
theorem Effect.full_line {i : Instr} {s t : State} (h : Effect i s t) (hI : s.Inv) (hfull : t.cx = s.w) :
    (t.cx = s.cx ∧ t.cy = s.cy) ∨ ∃ c, Prints i c := by
  have hw := hI.width_pos
  cases h with
  | quiet | textMode | tabStep | scroll | backlight | flushMode | flushCntl | shutdown => exact .inl ⟨rfl, rfl⟩
  | glyph =>
    rw [setCustomCharOp_eq]
    exact .inl ⟨rfl, rfl⟩
  | clear | home => exact absurd hfull hw.ne
  | handshake =>
    rw [beginOp_eq] at hfull
    exact absurd hfull hw.ne
  | linefeed => exact absurd (hI.linefeedOp_cx ▸ hfull) hw.ne
  | move x y => exact absurd hfull (hI.clamped x y).1.ne
  | backspace =>
    rw [backspaceOp_eq hI] at hfull
    exact absurd hfull hI.backspace_column.ne
  | print c _ hi => exact .inr ⟨c, hi⟩

/-- Settles O48: only a printable byte takes the cursor past the last column. -/
theorem onlyAPrintableByteFillsTheLine : Obligations.OnlyAPrintableByteFillsTheLine := by
  intro s t i hI h hfull
  cases hi : i.isRequest with
  | true =>
    obtain ⟨c, rfl⟩ | ⟨r, u, hu, rfl⟩ := exec_request_effect hi h
    · exact .inl ⟨rfl, rfl⟩
    · have hw : u.w = s.w := (hu.onlyWriters hI.startRequest).frame.1
      exact hu.full_line hI.startRequest (hfull.trans hw)
  | false =>
    obtain ⟨-, ⟨e, rfl⟩, -⟩ := exec_emitted_cases hi h
    exact .inl ⟨rfl, rfl⟩

/-! The data mode (10_state.md rule R33, 20_memory.md rule R53). -/

theorem modeAfter_append (m : DataMode) (es fs : List Event) :
    modeAfter m (es ++ fs) = modeAfter (modeAfter m es) fs := by
  induction es generalizing m with
  | nil => rfl
  | cons e es ih => cases e <;> exact ih _

/-- DM is the data mode that the trace leaves the transport in, and it is the instruction mode where it began so. -/
def EndsIn (m : DataMode) (s : State) : Prop := s.dm = modeAfter m s.tr ∧ (m = .instruction → s.dm = .instruction)

theorem EndsIn.startRequest (s : State) : EndsIn s.dm (startRequest s) := ⟨rfl, id⟩

theorem EndsIn.emit {m : DataMode} {s : State} {e : Event} (h : EndsIn m s) (he : ∀ m', e ≠ .mode m') :
    EndsIn m (emit e s) := by
  refine ⟨?_, h.2⟩
  rw [emit_tr, modeAfter_append, emit_dm, h.1]
  cases e with
  | mode m' => exact absurd rfl (he m')
  | _ => rfl

theorem EndsIn.setMode_instruction (m : DataMode) (s : State) : EndsIn m (setMode .instruction s) :=
  ⟨by rw [setMode_tr, modeAfter_append]; rfl, fun _ => rfl⟩

theorem EndsIn.cursorSetOp {m : DataMode} {s : State} (h : EndsIn m s) (x y : Int) : EndsIn m (cursorSetOp x y s) :=
  h.emit nofun

/-- `print_op` ends by setting the instruction mode. -/
theorem EndsIn.printOp (m : DataMode) (c : Byte) (s : State) : EndsIn m (printOp c s) := .setMode_instruction ..

theorem Effect.endsIn {i : Instr} {s t : State} {m : DataMode} (h : Effect i s t) (hs : EndsIn m s) : EndsIn m t := by
  cases h with
  | quiet | textMode | tabStep => exact hs
  | scroll | backlight | flushMode | flushCntl | shutdown => exact hs.emit nofun
  | clear | home => exact (hs.emit (e := .byte _) nofun).emit (e := .wait .longExec) nofun
  | move x y => exact hs.cursorSetOp x y
  | backspace => exact (EndsIn.printOp ..).cursorSetOp _ _
  | linefeed => exact (EndsIn.setMode_instruction ..).cursorSetOp _ _
  | print => exact .printOp ..
  | glyph => exact EndsIn.setMode_instruction ..
  | handshake q =>
    rw [beginOp_eq]
    refine ⟨?_, hs.2⟩
    cases q <;> simp [modeAfter_append, ← hs.1, modeAfter, bootstrapEvents]

/-- Settles O44: each effect sets the instruction mode last, or leaves the data mode alone. -/
theorem requestsEndInInstructionMode : Obligations.RequestsEndInInstructionMode := by
  intro s t i hi h
  obtain ⟨c, rfl⟩ | ⟨r, u, hu, rfl⟩ := exec_request_effect hi h
  · exact ⟨rfl, id⟩
  · exact hu.endsIn (EndsIn.startRequest s)

/-! How the instruction bytes that the engine sends are read back (30_encoding.md rule R82). -/

theorem decode_modeByte : ∀ v ∈ modeBytes,
    decodeInstructionByte v = some (.entryModeSet (v.extractLsb' 1 1) (v.extractLsb' 0 1)) := by decide

theorem decode_cntlByte : ∀ v ∈ cntlBytes,
    decodeInstructionByte v = some (.displayControl (v.extractLsb' 2 1) (v.extractLsb' 1 1) (v.extractLsb' 0 1)) := by
  decide

theorem decode_funcByte : ∀ v ∈ funcBytes, decodeInstructionByte v = some (.functionSet (v.extractLsb' 4 1)) := by decide

theorem extractLsb_or_0x80 : ∀ a : Byte, (0x80#8 ||| a).extractLsb' 0 7 = a.setWidth 7 := by decide

theorem decode_setDdramByte (n : Nat) :
    decodeInstructionByte (setDdramByte n) = some (.setDdramAddr (BitVec.ofNat 7 n)) := by
  have haddr := extractLsb_or_0x80 (BitVec.ofNat 8 n)
  have hw : (BitVec.ofNat 8 n).setWidth 7 = BitVec.ofNat 7 n := by
    apply BitVec.eq_of_toNat_eq
    simp
  simp [decodeInstructionByte, setDdramByte, haddr, hw]

theorem decode_setCgramByte {id : Byte} (h : id.toNat ≤ 7) :
    decodeInstructionByte (setCgramByte id) = some (.setCgramAddr (id.setWidth 3)) := by decide +revert

/-! The mirrors and the controller registers (10_state.md rule R26, 20_memory.md rule R65). -/

/-- Bytes sent in data mode are no instruction bytes, and leave the transport in data mode. -/
theorem instructionBytes_data (bs : List Byte) (es : List Event) :
    instructionBytes .data (bs.map .byte ++ es) = instructionBytes .data es := by
  induction bs with
  | nil => rfl
  | cons b bs ih => exact ih

/-- The controller registers after the instruction bytes of a trace that begins in instruction mode. -/
def deviceAfter (d : DeviceRegisters) (tr : List Event) : DeviceRegisters :=
  (instructionBytes .instruction tr).foldl deviceWrite d

@[simp] theorem deviceAfter_nil (d : DeviceRegisters) : deviceAfter d [] = d := rfl
@[simp] theorem deviceAfter_byte (d : DeviceRegisters) (b : Byte) (es : List Event) :
    deviceAfter d (.byte b :: es) = deviceAfter (deviceWrite d b) es := rfl
@[simp] theorem deviceAfter_wait (d : DeviceRegisters) (t : Duration) (es : List Event) :
    deviceAfter d (.wait t :: es) = deviceAfter d es := rfl
@[simp] theorem deviceAfter_setup (d : DeviceRegisters) (es : List Event) :
    deviceAfter d (.setup :: es) = deviceAfter d es := rfl
@[simp] theorem deviceAfter_nibble (d : DeviceRegisters) (v : Nibble) (es : List Event) :
    deviceAfter d (.nibble v :: es) = deviceAfter d es := rfl
@[simp] theorem deviceAfter_backlight (d : DeviceRegisters) (on : Bool) (es : List Event) :
    deviceAfter d (.backlight on :: es) = deviceAfter d es := rfl

/-- What is written in data mode does not reach the registers. -/
theorem deviceAfter_dataBlock (d : DeviceRegisters) (bs : List Byte) (es : List Event) :
    deviceAfter d (.mode .data :: (bs.map .byte ++ .mode .instruction :: es)) = deviceAfter d es :=
  congrArg (List.foldl deviceWrite d) (instructionBytes_data bs _)

@[simp] theorem deviceAfter_dataByte (d : DeviceRegisters) (b : Byte) (es : List Event) :
    deviceAfter d (.mode .data :: .byte b :: .mode .instruction :: es) = deviceAfter d es := rfl

@[simp] theorem deviceWrite_setDdramByte (d : DeviceRegisters) (n : Nat) : deviceWrite d (setDdramByte n) = d := by
  simp [deviceWrite, decode_setDdramByte]

theorem deviceWrite_modeByte {v : Byte} (hv : v ∈ modeBytes) (d : DeviceRegisters) :
    deviceWrite d v = { d with mode := v } := by simp [deviceWrite, decode_modeByte v hv]

theorem deviceWrite_cntlByte {v : Byte} (hv : v ∈ cntlBytes) (d : DeviceRegisters) :
    deviceWrite d v = { d with cntl := v } := by simp [deviceWrite, decode_cntlByte v hv]

theorem deviceWrite_funcByte {v : Byte} (hv : v ∈ funcBytes) (d : DeviceRegisters) :
    deviceWrite d v = { d with func := v } := by simp [deviceWrite, decode_funcByte v hv]

theorem deviceWrite_scroll {b : Byte} (hb : b = 0x18#8 ∨ b = 0x1C#8) (d : DeviceRegisters) : deviceWrite d b = d := by
  rcases hb with rfl | rfl <;> rfl

@[simp] theorem deviceWrite_clear (d : DeviceRegisters) : deviceWrite d 0x01#8 = { d with mode := setBit d.mode 1 } := rfl
@[simp] theorem deviceWrite_home (d : DeviceRegisters) : deviceWrite d 0x02#8 = d := rfl
@[simp] theorem deviceWrite_fs8 (d : DeviceRegisters) : deviceWrite d fs8 = { d with func := fs8 } := rfl

/-- A line feed sends addresses and data, which reach no register. -/
theorem deviceAfter_linefeed {s : State} (hI : s.Inv) (htr : s.tr = []) (d : DeviceRegisters) (es : List Event) :
    deviceAfter d ((linefeedOp s).tr ++ es) = deviceAfter d es := by
  rw [linefeedOp_eq hI.width_pos hI.height_pos]
  have hblock := deviceAfter_dataBlock d (List.replicate s.w spaceChar)
  simp_all [List.map_replicate]

theorem linefeedOp_mirrors {s : State} (hI : s.Inv) : mirrors (linefeedOp s) = mirrors s := by
  rw [linefeedOp_eq hI.width_pos hI.height_pos]
  rfl

theorem Effect.mirrors_eq {i : Instr} {s t : State} (h : Effect i s t) (hI : s.Inv) (htr : s.tr = []) :
    mirrors t = deviceAfter (mirrors s) t.tr := by
  cases h with
  | quiet | textMode | tabStep | backlight => simp [htr, mirrors]
  | scroll b hb => simp [htr, mirrors, deviceWrite_scroll hb]
  | flushMode v hv => simp [htr, mirrors, deviceWrite_modeByte (hv hI.mode)]
  | flushCntl v hv => simp [htr, mirrors, deviceWrite_cntlByte (hv hI.cntl)]
  | shutdown =>
    simp [htr, mirrors, clearBitOp_cntl, deviceWrite_cntlByte (clearBit_mem_cntlBytes _ hI.cntl 2 (by decide))]
  | clear => simp [htr, mirrors]
  | home => simp [htr, mirrors, cursorHomeOp]
  | move => simp [htr, mirrors, cursorSetOp, moveTo]
  | backspace => simp [htr, mirrors, backspaceOp_eq hI]
  | linefeed => simpa [linefeedOp_mirrors hI] using (deviceAfter_linefeed hI htr (mirrors s) []).symm
  | print c =>
    by_cases hfull : s.cx = s.w
    · rw [printOp_of_full hfull]
      exact (linefeedOp_mirrors hI).trans
        (deviceAfter_linefeed hI htr (mirrors s) [.mode .data, .byte c, .mode .instruction]).symm
    · simp [htr, mirrors, printOp_of_not_full hfull]
  | glyph id b0 b1 b2 b3 b4 b5 b6 b7 hid =>
    rw [setCustomCharOp_eq]
    have hblock := deviceAfter_dataBlock (mirrors s) [b0, b1, b2, b3, b4, b5, b6, b7] []
    simp_all [mirrors, deviceWrite, decode_setCgramByte hid]
  | handshake q =>
    have hfunc := bootstrapFunc_mem_funcBytes q _ hI.func
    have hcntl := setBit_mem_cntlBytes _ hI.cntl 2 (by decide)
    rw [beginOp_eq]
    cases q <;>
      simp [htr, mirrors, bootstrapEvents, deviceWrite_funcByte hfunc, deviceWrite_cntlByte hI.cntl,
        deviceWrite_cntlByte hcntl]

/-- Settles O46: each effect leaves in the mirrors what the bytes it sent leave in the registers. -/
theorem mirrorsEqualTheDeviceRegisters : Obligations.MirrorsEqualTheDeviceRegisters := by
  intro s t i hI hi h
  rw [hI.dm]
  obtain ⟨c, rfl⟩ | ⟨r, u, hu, rfl⟩ := exec_request_effect hi h
  · rfl
  · exact hu.mirrors_eq hI.startRequest rfl

/-! The cursor and the address counter (10_state.md rule R27). -/

section
variable {a : AddressCounter} (ha : a.dm = .instruction)
include ha

theorem AddressCounter.event_setDdramByte {n : Nat} (hn : n ≤ 127) :
    a.event (.byte (setDdramByte n)) = { a with space := .ddram, address := n } := by
  have : n % 128 = n := Nat.mod_eq_of_lt (by omega)
  simp [AddressCounter.event, ha, decode_setDdramByte, this]

theorem AddressCounter.event_clear :
    a.event (.byte 0x01#8) = { a with space := .ddram, address := 0, increment := true } := by
  simp only [AddressCounter.event, ha]
  rfl

theorem AddressCounter.event_home : a.event (.byte 0x02#8) = { a with space := .ddram, address := 0 } := by
  simp only [AddressCounter.event, ha]
  rfl

theorem AddressCounter.event_scroll {b : Byte} (hb : b = 0x18#8 ∨ b = 0x1C#8) : a.event (.byte b) = a := by
  rcases hb with rfl | rfl <;> simp only [AddressCounter.event, ha] <;> rfl

theorem AddressCounter.event_fs8 : a.event (.byte fs8) = a := by
  simp only [AddressCounter.event, ha]
  rfl

theorem AddressCounter.event_setCgramByte {id : Byte} (hid : id.toNat ≤ 7) :
    a.event (.byte (setCgramByte id)) = { a with space := .cgram, address := 8 * (id.setWidth 3).toNat } := by
  simp only [AddressCounter.event, ha, decode_setCgramByte hid]

theorem AddressCounter.event_modeByte {v : Byte} (hv : v ∈ modeBytes) :
    a.event (.byte v) = { a with increment := v.getLsbD 1 } := by
  have hbit : ∀ v ∈ modeBytes, (v.extractLsb' 1 1 == 1#1) = v.getLsbD 1 := by decide
  simp [AddressCounter.event, ha, decode_modeByte v hv, hbit v hv]

theorem AddressCounter.event_cntlByte {v : Byte} (hv : v ∈ cntlBytes) : a.event (.byte v) = a := by
  simp [AddressCounter.event, ha, decode_cntlByte v hv]

theorem AddressCounter.event_funcByte {v : Byte} (hv : v ∈ funcBytes) : a.event (.byte v) = a := by
  simp [AddressCounter.event, ha, decode_funcByte v hv]

end

@[simp] theorem AddressCounter.event_mode (a : AddressCounter) (m : DataMode) : a.event (.mode m) = { a with dm := m } := rfl
@[simp] theorem AddressCounter.event_setup (a : AddressCounter) : a.event .setup = a := rfl
@[simp] theorem AddressCounter.event_nibble (a : AddressCounter) (v : Nibble) : a.event (.nibble v) = a := rfl
@[simp] theorem AddressCounter.event_wait (a : AddressCounter) (t : Duration) : a.event (.wait t) = a := rfl
@[simp] theorem AddressCounter.event_backlight (a : AddressCounter) (on : Bool) : a.event (.backlight on) = a := rfl

theorem AddressCounter.event_dataByte {a : AddressCounter} (ha : a.dm = .data) (hup : a.increment = true) (b : Byte) :
    a.event (.byte b) = { a with address := a.address + 1 } := by simp [AddressCounter.event, ha, hup]

/-- Data bytes move the address and nothing else of the counter. -/
theorem foldl_event_data {a : AddressCounter} (ha : a.dm = .data) (bs : List Byte) :
    ∃ n, (bs.map Event.byte).foldl AddressCounter.event a = { a with address := n } := by
  induction bs generalizing a with
  | nil => exact ⟨a.address, rfl⟩
  | cons b bs ih =>
    have hb : a.event (.byte b) = { a with address := if a.increment then a.address + 1 else a.address - 1 } := by
      simp [AddressCounter.event, ha]
    rw [List.map_cons, List.foldl_cons, hb]
    exact ih ha

/-- A line feed leaves the counter at the start of its row, wherever it stood. -/
theorem foldl_event_linefeed {s : State} (hI : s.Inv) (htr : s.tr = []) {a : AddressCounter} (ha : a.dm = .instruction) :
    (linefeedOp s).tr.foldl AddressCounter.event a =
      { a with space := .ddram, address := ddramAddr s.offset 0 (if s.cy + 1 < s.h then s.cy + 1 else 0) } := by
  rw [linefeedOp_eq hI.width_pos hI.height_pos]
  have haddr := hI.addr_le hI.width_pos hI.linefeed_row
  generalize (if s.cy + 1 < s.h then s.cy + 1 else 0) = y at haddr
  have hset {a : AddressCounter} (ha : a.dm = .instruction) := AddressCounter.event_setDdramByte ha haddr
  obtain ⟨n, hn⟩ := foldl_event_data (a := { a with dm := .data, space := .ddram, address := (s.offset.get y).toNat }) rfl
    (List.replicate s.w spaceChar)
  simp_all [List.map_replicate, ddramAddr]

/-- A printed byte moves a counter that counts up by one. -/
theorem foldl_event_print {a : AddressCounter} (ha : a.dm = .instruction) (hup : a.increment = true) (c : Byte) :
    [Event.mode .data, .byte c, .mode .instruction].foldl AddressCounter.event a = { a with address := a.address + 1 } := by
  simp [AddressCounter.event, ha, hup]

theorem Follows.of_foldl {t : State} {a b : AddressCounter} {es : List Event}
    (h : es.foldl AddressCounter.event a = b) (hb : Follows t b) : Follows t (es.foldl AddressCounter.event a) := h ▸ hb

/-- A counter that agrees with the cursor agrees with it again once the trace of an effect is performed. -/
theorem Effect.follows {i : Instr} {s t : State} {a : AddressCounter} (h : Effect i s t) (hI : s.Inv) (htr : s.tr = [])
    (hmode : s.mode = 0x06#8) (hf : Follows s a) : Follows t (t.tr.foldl AddressCounter.event a) := by
  have ⟨hdm, hinc, hsp, haddr⟩ := hf
  have ha : a.dm = .instruction := hdm.trans hI.dm
  have hup : a.increment = true := by rw [hinc, hmode]; rfl
  have hhome : (0 : Int) = ddramAddr s.offset 0 0 := by simp [ddramAddr, hI.row_zero]
  cases h with
  | quiet | textMode | tabStep | backlight => exact .of_foldl (b := a) (by simp [htr]) hf
  | scroll b hb => exact .of_foldl (b := a) (by simp [htr, AddressCounter.event_scroll ha hb]) hf
  | flushMode v hv =>
    exact .of_foldl (b := { a with increment := v.getLsbD 1 })
      (by simp [htr, AddressCounter.event_modeByte ha (hv hI.mode)]) ⟨hdm, rfl, hsp, haddr⟩
  | flushCntl v hv => exact .of_foldl (b := a) (by simp [htr, AddressCounter.event_cntlByte ha (hv hI.cntl)]) hf
  | shutdown =>
    have hv := clearBit_mem_cntlBytes _ hI.cntl 2 (by decide)
    exact .of_foldl (b := a) (by simp [htr, clearBitOp_cntl, AddressCounter.event_cntlByte ha hv]) hf
  | clear =>
    exact .of_foldl (b := ⟨a.dm, true, .ddram, 0⟩) (by simp [htr, AddressCounter.event_clear ha])
      ⟨hdm, by rw [displayClearOp_mode, hmode]; rfl, rfl, fun _ => hhome⟩
  | home =>
    exact .of_foldl (b := ⟨a.dm, a.increment, .ddram, 0⟩) (by simp [htr, cursorHomeOp, AddressCounter.event_home ha])
      ⟨hdm, hinc, rfl, fun _ => hhome⟩
  | move x y =>
    obtain ⟨hx, hy⟩ := hI.clamped x y
    exact .of_foldl (b := ⟨a.dm, a.increment, .ddram, _⟩)
      (by simp [htr, cursorSetOp, moveTo, AddressCounter.event_setDdramByte ha (hI.addr_le hx hy), ddramAddr])
      ⟨hdm, hinc, rfl, fun _ => rfl⟩
  | backspace =>
    rw [backspaceOp_eq hI]
    exact .of_foldl (b := ⟨.instruction, a.increment, .ddram, _⟩)
      (by simp [htr, AddressCounter.event_setDdramByte, hI.addr_le hI.backspace_column hI.backspace_row, ddramAddr, ha, hup,
        AddressCounter.event_dataByte]) ⟨rfl, hinc, rfl, fun _ => rfl⟩
  | linefeed =>
    rw [foldl_event_linefeed hI htr ha, linefeedOp_eq hI.width_pos hI.height_pos]
    exact ⟨ha, hinc, rfl, fun _ => rfl⟩
  | print c =>
    by_cases hfull : s.cx = s.w
    · rw [printOp_of_full hfull, List.foldl_append, foldl_event_linefeed hI htr ha, foldl_event_print,
        linefeedOp_eq hI.width_pos hI.height_pos]
      · exact ⟨ha, hinc, rfl, fun _ => by simp [ddramAddr]⟩
      · exact ha
      · exact hup
    · rw [printOp_of_not_full hfull, htr, List.nil_append, foldl_event_print ha hup]
      exact ⟨ha, hinc, hsp, fun hd => by simp [haddr hd, ddramAddr, add_assoc]⟩
  | glyph id b0 b1 b2 b3 b4 b5 b6 b7 hid =>
    rw [setCustomCharOp_eq]
    obtain ⟨n, hn⟩ := foldl_event_data (a := ⟨.data, a.increment, .cgram, 8 * (id.setWidth 3).toNat⟩) rfl
      [b0, b1, b2, b3, b4, b5, b6, b7]
    refine .of_foldl (b := ⟨.instruction, a.increment, .cgram, n⟩) ?_ ⟨rfl, hinc, rfl, nofun⟩
    simp only [htr, List.nil_append, List.foldl_append, List.foldl_cons, List.foldl_nil,
      AddressCounter.event_setCgramByte ha hid, AddressCounter.event_mode, hn]
  | handshake q =>
    have hfunc := bootstrapFunc_mem_funcBytes q _ hI.func
    have hcntl := setBit_mem_cntlBytes _ hI.cntl 2 (by decide)
    have hboot : (bootstrapEvents q).foldl AddressCounter.event a = a := by
      cases q <;> simp [bootstrapEvents, AddressCounter.event_fs8 ha]
    rw [beginOp_eq]
    refine .of_foldl (b := ⟨.instruction, true, .ddram, 0⟩) ?_ ⟨hI.dm.symm, by simp only [hmode]; rfl, rfl, fun _ => hhome⟩
    simp [htr, hboot, AddressCounter.event_funcByte ha hfunc, AddressCounter.event_cntlByte ha hI.cntl,
      AddressCounter.event_clear ha, AddressCounter.event_cntlByte _ hcntl, ha]

/-- Settles O47: each effect moves the counter of its trace as it moves the cursor. -/
theorem cursorFollowsTheAddressCounter : Obligations.CursorFollowsTheAddressCounter := by
  intro s t i a hI hmode hi h hf
  obtain ⟨c, rfl⟩ | ⟨r, u, hu, rfl⟩ := exec_request_effect hi h
  · exact hf
  · exact hu.follows hI.startRequest rfl hmode hf

/-! The flags that are never seen (10_state.md rules R30, R34, R35, R36). -/

/-- A function on states that keeps two states the same but for the flags. -/
def RespectsFlags (f : State → State) : Prop := ∀ s s', SameButFlags s s' → SameButFlags (f s) (f s')

theorem sameButFlags_iff {s s' : State} :
    SameButFlags s s' ↔ ∃ tm acsp bl bus8, s' = { s with tm := tm, acsp := acsp, bl := bl, bus8 := bus8 } := by
  constructor
  · intro h
    exact ⟨_, _, _, _, h⟩
  · rintro ⟨tm, acsp, bl, bus8, rfl⟩
    rfl

theorem RespectsFlags.intro {f : State → State}
    (h : ∀ s tm acsp bl bus8, SameButFlags (f s) (f { s with tm := tm, acsp := acsp, bl := bl, bus8 := bus8 })) :
    RespectsFlags f := by
  intro s s' hs
  obtain ⟨tm, acsp, bl, bus8, rfl⟩ := sameButFlags_iff.1 hs
  exact h s tm acsp bl bus8

theorem RespectsFlags.comp {f g : State → State} (hg : RespectsFlags g) (hf : RespectsFlags f) :
    RespectsFlags fun s => g (f s) := fun s s' h => hg _ _ (hf s s' h)

theorem respectsFlags_emit (e : Event) : RespectsFlags (emit e) := .intro fun _ _ _ _ _ => rfl
theorem respectsFlags_startRequest : RespectsFlags startRequest := .intro fun _ _ _ _ _ => rfl
theorem respectsFlags_raiseFault (c : FaultCode) : RespectsFlags (raiseFault c) := .intro fun _ _ _ _ _ => rfl

theorem RespectsFlags.respond {f : State → State} (hf : RespectsFlags f) (r : Response) :
    RespectsFlags fun s => respond r (f s) :=
  RespectsFlags.comp (g := Machine.respond r) (.intro fun _ _ _ _ _ => rfl) hf

theorem respectsFlags_linefeedOp : RespectsFlags linefeedOp := .intro fun s tm acsp bl bus8 => by
  simp only [linefeedOp, datAll_eq]
  rfl

theorem respectsFlags_wrapIfFull : RespectsFlags wrapIfFull := by
  intro s s' h
  have hcx : s'.cx = s.cx := by rw [h]
  have hw : s'.w = s.w := by rw [h]
  unfold wrapIfFull
  rw [hcx, hw]
  split
  · exact respectsFlags_linefeedOp s s' h
  · exact h

theorem respectsFlags_printOp (c : Byte) : RespectsFlags (printOp c) :=
  RespectsFlags.comp
    (g := fun s => setMode .instruction (dat c (setMode .data { s with cx := s.cx + 1 })))
    (.intro fun _ _ _ _ _ => rfl) respectsFlags_wrapIfFull

theorem respectsFlags_backspaceOp : RespectsFlags backspaceOp := by
  have hleft : RespectsFlags fun s => cursorSetOp ((s.cx : Int) - 1) s.cy s := .intro fun _ _ _ _ _ => rfl
  exact hleft.comp ((respectsFlags_printOp spaceChar).comp hleft)

theorem respectsFlags_classBody (c : Byte) (k : StreamClass) : RespectsFlags (classBody c k) := by
  cases k
  case bs => exact respectsFlags_backspaceOp.respond (.count 1)
  case lf => exact respectsFlags_linefeedOp.respond (.count 1)
  case printable => exact (respectsFlags_printOp c).respond (.count 1)
  all_goals exact .intro fun _ _ _ _ _ => rfl

theorem respectsFlags_body (i : Instr) : RespectsFlags (body i) := by
  cases i
  case write c => exact respectsFlags_classBody c _
  case writeBs => exact respectsFlags_classBody 0x08#8 .bs
  case writeLf => exact respectsFlags_classBody 0x0A#8 .lf
  case writePrintable c => exact respectsFlags_classBody c .printable
  case beginReq =>
    refine .intro fun s tm acsp bl bus8 => ?_
    simp only [body, beginOp_eq]
    rfl
  all_goals exact .intro fun _ _ _ _ _ => rfl

/-- Two engines answer alike: where one answers a next state so does the other, the same but for the flags. -/
def AnswersAlike (r r' : Result) : Prop := ∀ t, r = .next t → ∃ t', r' = .next t' ∧ SameButFlags t t'

theorem AnswersAlike.next {t t' : State} (h : SameButFlags t t') : AnswersAlike (.next t) (.next t') := by
  rintro _ ⟨⟩
  exact ⟨t', rfl, h⟩

theorem AnswersAlike.required {p : Prop} [Decidable p] {r r' : Result} (q : Refusal) (h : AnswersAlike r r') :
    AnswersAlike (if p then r else .refused q) (if p then r' else .refused q) := by
  split
  · exact h
  · intro t ht
    cases ht

theorem AnswersAlike.unlessFaulted {s s' : State} {r r' : Result} (h : SameButFlags s s') (hr : AnswersAlike r r') :
    AnswersAlike (unlessFaulted s r) (unlessFaulted s' r') := by
  intro t ht
  obtain ⟨hf, ht⟩ := unlessFaulted_next_iff.1 ht
  have hf' : s'.flt = 0x00#8 := by rw [h]; exact hf
  rw [unlessFaulted_of_running hf']
  exact hr t ht

theorem exec_request_alike {s s' : State} {i : Instr} (hi : i.isRequest = true) (h : SameButFlags s s') :
    AnswersAlike (exec i s) (exec i s') := by
  intro t ht
  have hinit : s'.init = s.init := by rw [h]
  obtain ⟨hf, ht⟩ := exec_request_cases hi ht
  have hf' : s'.flt = 0x00#8 := by rw [h]; exact hf
  obtain ⟨hbody, hfault⟩ := exec_request hf' i hi
  have hperf : Performs i s' ↔ Performs i s := by unfold Performs; rw [hinit]
  have hcode : requestFault i s' = requestFault i s := by unfold requestFault; rw [hinit]
  obtain ⟨hp, rfl⟩ | ⟨hp, rfl⟩ := ht
  · exact ⟨_, hbody (hperf.2 hp), respectsFlags_body i _ _ (respectsFlags_startRequest s s' h)⟩
  · exact ⟨_, hfault (mt hperf.1 hp), hcode ▸ respectsFlags_raiseFault _ s s' h⟩

theorem exec_emitted_alike {s s' : State} {i : Instr} (hi : i.isRequest = false) (h : SameButFlags s s') :
    AnswersAlike (exec i s) (exec i s') := by
  have hdm : s'.dm = s.dm := by rw [h]
  have hemit (e : Event) : AnswersAlike (.next (emit e s)) (.next (emit e s')) := .next (respectsFlags_emit e s s' h)
  have hnib (v : Nibble) : AnswersAlike (emitInEitherMode s (nib v)) (emitInEitherMode s' (nib v)) :=
    .unlessFaulted h (hemit _)
  have hcmd (b : Byte) : AnswersAlike (emitInInstructionMode s (cmd b)) (emitInInstructionMode s' (cmd b)) := by
    refine .unlessFaulted h ?_
    rw [hdm]
    exact .required _ (hemit _)
  have hdat (b : Byte) : AnswersAlike (emitInDataMode s (dat b)) (emitInDataMode s' (dat b)) := by
    refine .unlessFaulted h ?_
    rw [hdm]
    exact .required _ (hemit _)
  cases i
  case nibbleFs8 => exact hnib (lowNibble (rowByte .nibbleFs8))
  case nibbleFs4 => exact hnib (lowNibble (rowByte .nibbleFs4))
  case data d => exact hdat (rowByte (.data d))
  case clearDisplay | returnHome | entryModeSet | displayControl | displayShiftLeft | displayShiftRight | functionSet |
      functionSet8Bit | setCgramAddr | setDdramAddr => exact hcmd _
  all_goals exact absurd (show true = false from hi) (by decide)

/-- Settles O49: no effect, no admission and no emission reads one of the four flags. -/
theorem shadowFlagsAreNeverSeen : Obligations.ShadowFlagsAreNeverSeen := by
  intro s s' t i h ht
  have halike : AnswersAlike (exec i s) (exec i s') := by
    cases hi : i.isRequest with
    | true => exact exec_request_alike hi h
    | false => exact exec_emitted_alike hi h
  obtain ⟨t', ht', hs⟩ := halike t ht
  refine ⟨t', ht', hs, ?_, ?_⟩ <;> rw [hs]

end Sys2Proof.Machine
end

