-- ==== Sys2Proof/Proofs/Memory.lean ====
section
/-! PROOFS. The run's observation (20_memory.md rule R61, 70_reset_and_hazards.md rule R212): no effect of a request writes
it, and a step that takes a frame adds to it what the request showed. -/

namespace Sys2Proof.Machine

/-! No effect of a request writes the observation. -/

@[simp] theorem datAll_observed (bs : List Byte) (s : State) : (datAll bs s).observed = s.observed := by rw [datAll_eq]

@[simp] theorem cursorSetOp_observed (x y : Int) (s : State) : (cursorSetOp x y s).observed = s.observed := rfl

@[simp] theorem linefeedOp_observed (s : State) : (linefeedOp s).observed = s.observed := by simp [linefeedOp]

@[simp] theorem printOp_observed (c : Byte) (s : State) : (printOp c s).observed = s.observed := by
  by_cases hfull : s.cx = s.w
  · simp [printOp_of_full hfull]
  · simp [printOp_of_not_full hfull]

theorem Effect.observed {i : Instr} {s t : State} (h : Effect i s t) : t.observed = s.observed := by
  cases h with
  | quiet | textMode | tabStep | scroll | backlight | flushMode | flushCntl | shutdown | clear | home | move => rfl
  | backspace => simp [backspaceOp]
  | linefeed => exact linefeedOp_observed s
  | print c => exact printOp_observed c s
  | glyph => rw [setCustomCharOp_eq]
  | handshake => rw [beginOp_eq]

/-! What a step can do. -/

/-- The frames left once the oldest frame has been taken (log entries 3 and 4). -/
def framesLeft (frame : List Byte) (frames : List (List Byte)) : List (List Byte) :=
  match decode frame with
  | .instr _ left => framesAfter left frames
  | .truncated => frames

/-- Everything the taking of a frame can answer with a next state: a fault, or an effect of the request that the frame
decodes to, and a response. -/
theorem takeFrame_cases {s t : State} {frame : List Byte} {frames : List (List Byte)}
    (h : takeFrame frame frames s = .next t) :
    let s' := { s with pending := framesLeft frame frames }
    (∃ c, t = raiseFault c s') ∨
      ∃ i left r u, decode frame = .instr i left ∧ Effect i (startRequest s') u ∧ t = respond r u := by
  intro s'
  cases hd : decode frame with
  | instr i left =>
    have hs' : s' = { s with pending := framesAfter left frames } := by simp [s', framesLeft, hd]
    rw [takeFrame_of_instr hd, ← hs'] at h
    obtain hfault | ⟨r, u, hu, ht⟩ := exec_request_effect (decode_isRequest hd) h
    · exact .inl hfault
    · exact .inr ⟨i, left, r, u, rfl, hu, ht⟩
  | truncated =>
    have hs' : s' = { s with pending := frames } := by simp [s', framesLeft, hd]
    rw [takeFrame_of_truncated hd, ← hs'] at h
    exact .inl ⟨_, (faultRequest_cases h).2⟩

/-- Everything a step can do: wait with no frame to take, or take the oldest frame and record what its request showed. -/
theorem step_cases {s t : State} (h : step s = .next t) :
    s.flt = 0x00#8 ∧ ((s.pending = [] ∧ t = s) ∨
      ∃ frame frames u, s.pending = frame :: frames ∧ takeFrame frame frames s = .next u ∧ t = recordObservation u) := by
  have hf : s.flt = 0x00#8 := (unlessFaulted_next_iff.1 h).1
  refine ⟨hf, ?_⟩
  cases hp : s.pending with
  | nil =>
    rw [step_of_no_frame hf hp] at h
    cases h
    exact .inl ⟨rfl, rfl⟩
  | cons frame frames =>
    obtain ⟨u, hu⟩ := takeFrame_next hf frame frames
    rw [step_of_frame hf hp, hu] at h
    cases h
    exact .inr ⟨frame, frames, u, rfl, hu, rfl⟩

theorem faultValue_ne_zero (c : FaultCode) : faultValue c ≠ 0x00#8 := by cases c <;> decide

@[simp] theorem wholeTrace_concat (os : List Observation) (o : Observation) :
    wholeTrace (os ++ [o]) = wholeTrace os ++ o.trace := by simp [wholeTrace]

/-- Settles O11: a request that does not fault responds, its effect leaves the observation alone, and the step then adds its
response and trace. -/
theorem eachCompletedRequestIsObserved : Obligations.EachCompletedRequestIsObserved := by
  intro s t hp h hflt
  obtain ⟨-, ⟨hnil, -⟩ | ⟨frame, frames, u, -, hu, rfl⟩⟩ := step_cases h
  · exact absurd hnil hp
  · obtain ⟨c, rfl⟩ | ⟨i, left, r, v, -, hv, rfl⟩ := takeFrame_cases hu
    · exact absurd hflt (faultValue_ne_zero c)
    · have hobs : v.observed = s.observed := hv.observed
      rw [recordObservation_of_response (respond_response r v)]
      exact ⟨r, rfl, by simp [hobs], by simp [hobs]⟩

end Sys2Proof.Machine
end

