-- ==== Sys2Proof/Proofs/Encoding.lean ====
section
/-! PROOFS. The encodings (30_encoding.md): decoding and encoding undo each other in every format, the faults of the request
decoder, the set of instruction bytes that requests emit, and the types of their responses. -/

namespace Sys2Proof.Machine

/-! What a decoder reads is a row of its format (30_encoding.md rules R72, R75, R76, R79). -/

/-- The byte `b` is the whole encoding of `i`, a well-formed instruction of format `f`. -/
abbrev IsRow (f : Format) (b : Byte) (i : Instr) : Prop := encode i = [b] ∧ i.wellFormed = true ∧ i.format = f

theorem decodeBare_isRow : ∀ op : Byte, ∀ i ∈ decodeBare op, IsRow .req op i := by decide

theorem decodeStreamByte_isRow : ∀ c : Byte, IsRow .txt c (decodeStreamByte c) := by decide

theorem decodeInstructionByte_isRow : ∀ b : Byte, ∀ i ∈ decodeInstructionByte b, IsRow .cmd b i := by decide

theorem decodeNibble_isRow : ∀ b : Byte, b.extractLsb' 4 4 = 0#4 →
    ∀ i ∈ decodeNibble (b.extractLsb' 0 4), IsRow .nib b i := by decide

/-- What `Obligations.EncodeOfDecode` says of the instruction `i` read from `bs` in format `f`, with `rest` left. -/
def Reads (f : Format) (bs rest : List Byte) (i : Instr) : Prop :=
  bs = encode i ++ rest ∧ i.wellFormed = true ∧ i.format = f

theorem IsRow.reads {f : Format} {b : Byte} {i : Instr} (h : IsRow f b i) (rest : List Byte) :
    Reads f (b :: rest) rest i := ⟨by rw [h.1]; rfl, h.2⟩

/-! Reserved opcodes, and the request decoder by the number of operand bytes (30_encoding.md rules R70, R73). -/

theorem isReservedOpcode_iff {op : Byte} : isReservedOpcode op = true ↔ op = 0x00#8 ∨ 0x1B ≤ op.toNat := by
  decide +revert

theorem isReservedOpcode_iff_decodeBare {op : Byte} :
    isReservedOpcode op = true ↔ operandCount op = 0 ∧ decodeBare op = none := by decide +revert

theorem decode_of_reserved {op : Byte} (h : isReservedOpcode op = true) (rest : List Byte) :
    decode (op :: rest) = .instr (.reserved op) rest := by
  obtain ⟨hn, hb⟩ := isReservedOpcode_iff_decodeBare.1 h
  simp only [operandCount] at hn
  split_ifs at hn
  simp_all [decode]

/-- A frame is cut short where it has fewer operand bytes than its opcode takes, and nowhere else; the opcodes with operands
in the order of `decode`. -/
theorem decode_eq_truncated_iff (op : Byte) (args : List Byte) :
    decode (op :: args) = .truncated ↔ args.length < operandCount op := by
  simp only [decode, operandCount]
  split_ifs
  · cases args <;> simp
  · rcases args with _ | ⟨x, _ | ⟨y, args⟩⟩ <;> simp
  · iterate 9 (rcases args with _ | ⟨b, args⟩; · simp)
    simp
  · cases args <;> simp
  · cases decodeBare op <;> simp

/-- The request decoder consumes the encoding of the request it reads. -/
theorem decode_reads {bs rest : List Byte} {i : Instr} (h : decode bs = .instr i rest) : Reads .req bs rest i := by
  unfold decode at h
  split at h
  case h_1 => cases h
  case h_2 op args =>
    split_ifs at h
    case neg =>
      split at h <;> cases h
      case h_1 hbare => exact (decodeBare_isRow op i hbare).reads _
      case h_2 hbare => exact ⟨rfl, isReservedOpcode_iff_decodeBare.2 ⟨by simp [operandCount, *], hbare⟩, rfl⟩
    all_goals
      subst op
      split at h <;> cases h
      exact ⟨rfl, rfl, rfl⟩

theorem encode_length {i : Instr} (hwf : i.wellFormed = true) (hi : i.format = .req) :
    (encode i).length = operandCount ((encode i).headD 0x00#8) + 1 := by
  cases i with
  | reserved op => simp [encode, Laws.operandCount_of_reserved op hwf]
  | _ => cases hi <;> rfl

/-- A whole frame is read as a request of its opcode and the operand bytes that follow it. -/
theorem decode_of_whole_frame {op : Byte} {args : List Byte} (hlen : operandCount op ≤ args.length) :
    ∃ i, decode (op :: args) = .instr i (args.drop (operandCount op)) ∧ i.wellFormed = true ∧ i.format = .req ∧
      encode i = op :: args.take (operandCount op) := by
  cases hd : decode (op :: args) with
  | truncated => exact absurd ((decode_eq_truncated_iff op args).1 hd) hlen.not_gt
  | instr i rest =>
    obtain ⟨hbytes, hwf, hreq⟩ := decode_reads hd
    have hlength := encode_length hwf hreq
    cases he : encode i with
    | nil => simp [he] at hlength
    | cons b operands =>
      rw [he, List.cons_append] at hbytes
      obtain ⟨rfl, rfl⟩ := List.cons.inj hbytes
      have hn : operandCount op = operands.length := by simpa [he] using hlength.symm
      exact ⟨i, by simp [hn], hwf, hreq, by simp [hn, he]⟩

/-! The encoding of a row is read back (30_encoding.md rules R70 to R81). -/

theorem decode_encode {i : Instr} (hwf : i.wellFormed = true) (hi : i.format = .req) (rest : List Byte) :
    decode (encode i ++ rest) = .instr i rest := by
  cases i with
  | reserved op => exact decode_of_reserved hwf rest
  | _ => cases hi <;> rfl

theorem encode_eq_rowByte {i : Instr} (hi : i.format ≠ .req) : encode i = [rowByte i] := by
  cases i <;> simp [Instr.format] at hi <;> rfl

theorem decodeStreamByte_rowByte {i : Instr} (hwf : i.wellFormed = true) (hi : i.format = .txt) :
    decodeStreamByte (rowByte i) = i := by
  cases i with
  | writeCtlOther c | writePrintable c => decide +revert
  | _ => cases hi <;> rfl

theorem decodeInstructionByte_rowByte {i : Instr} (hi : i.format = .cmd) :
    decodeInstructionByte (rowByte i) = some i := by
  cases i with
  | entryModeSet | displayControl | functionSet | setCgramAddr | setDdramAddr => decide +revert
  | _ => cases hi <;> rfl

theorem decodeNibble_rowByte {i : Instr} (hi : i.format = .nib) :
    (rowByte i).extractLsb' 4 4 = 0#4 ∧ decodeNibble ((rowByte i).extractLsb' 0 4) = some i := by
  cases i <;> cases hi
  all_goals decide

theorem data_rowByte {i : Instr} (hi : i.format = .data) : .data (rowByte i) = i := by
  cases i <;> cases hi
  rfl

/-- Settles O1: the decoder of each format reads the encoding of its rows back. -/
theorem decodeOfEncode : Obligations.DecodeOfEncode := by
  intro i rest hwf
  have hbyte (hi : i.format ≠ .req) : encode i ++ rest = rowByte i :: rest := by rw [encode_eq_rowByte hi]; rfl
  cases hi : i.format with
  | req => simp [decodeAs, decode_encode hwf hi]
  | txt => simp [hbyte, hi, decodeAs, decodeStreamByte_rowByte hwf hi]
  | cmd => simp [hbyte, hi, decodeAs, decodeInstructionByte_rowByte hi]
  | nib => simp [hbyte, hi, decodeAs, decodeNibble_rowByte hi]
  | data => simp [hbyte, hi, decodeAs, data_rowByte hi]

/-- Settles O2: a request frame by the request decoder, and in the other formats the one byte that is read is a row. -/
theorem encodeOfDecode : Obligations.EncodeOfDecode := by
  intro f bs rest i h
  unfold decodeAs at h
  split at h
  case h_1 =>
    split at h <;> cases h
    exact decode_reads ‹_›
  case h_2 => cases h
  case h_3 c _ =>
    cases h
    exact (decodeStreamByte_isRow c).reads rest
  case h_4 b _ =>
    obtain ⟨j, hj, heq⟩ := Option.map_eq_some_iff.1 h
    cases heq
    exact (decodeInstructionByte_isRow b i hj).reads rest
  case h_5 b _ =>
    split_ifs at h with hhigh
    obtain ⟨j, hj, heq⟩ := Option.map_eq_some_iff.1 h
    cases heq
    exact (decodeNibble_isRow b hhigh i hj).reads rest
  case h_6 =>
    cases h
    exact ⟨rfl, rfl, rfl⟩

/-- Settles O3: the decoders, evaluated on the twelve words. -/
theorem writtenWordsDecode : Obligations.WrittenWordsDecode := by
  unfold Obligations.WrittenWordsDecode
  decide

/-! Illegal and truncated frames (30_encoding.md rule R73). -/

theorem step_of_reserved {s : State} {op : Byte} {args : List Byte} {frames : List (List Byte)} (hf : s.flt = 0x00#8)
    (hp : s.pending = (op :: args) :: frames) (hop : isReservedOpcode op = true) :
    step s = .next (raiseFault .illegalRequest { s with pending := framesAfter args frames }) := by
  have hx := faultRequest_of_running (s := { s with pending := framesAfter args frames }) hf .illegalRequest
  rw [step_of_frame hf hp, takeFrame_of_instr (decode_of_reserved hop args), exec, execReserved, hx]
  rfl

theorem step_of_truncated {s : State} {frame : List Byte} {frames : List (List Byte)} (hf : s.flt = 0x00#8)
    (hp : s.pending = frame :: frames) (hd : decode frame = .truncated) :
    step s = .next (raiseFault .truncatedRequest { s with pending := frames }) := by
  have hx := faultRequest_of_running (s := { s with pending := frames }) hf .truncatedRequest
  rw [step_of_frame hf hp, takeFrame_of_truncated hd, truncatedRequest, hx]
  rfl

/-- Settles O4: the decoder's answer is RESERVED for a reserved opcode, cut short for a frame with too few operand bytes, and
a request of the frame's own bytes for every other frame. -/
theorem illegalAndTruncatedFramesFault : Obligations.IllegalAndTruncatedFramesFault := by
  intro s op args frames hf hp operands
  have hn : operands = operandCount op := by
    simp only [operands, operandCount]
    split_ifs <;> simp_all
  rw [hn]
  refine ⟨fun hop => ?_, fun hlen => ?_, fun hlow hhigh hlen => ?_⟩
  · exact ⟨faultRequest_of_running hf _, step_of_reserved hf hp (isReservedOpcode_iff.2 hop)⟩
  · exact step_of_truncated hf hp ((decode_eq_truncated_iff op args).2 hlen)
  · obtain ⟨i, hd, hwf, hreq, he⟩ := decode_of_whole_frame hlen
    refine ⟨i, hd, hreq, ?_, he⟩
    rintro c rfl
    obtain ⟨rfl, -⟩ := List.cons.inj he
    obtain rfl | hge := isReservedOpcode_iff.1 hwf
    · exact absurd hlow (by decide)
    · omega

/-! The emitted set (30_encoding.md rule R82). -/

/-- Every instruction byte of a trace that begins in instruction mode is of the emitted set of the engine `s`, and every
nibble is one of the bootstrap. -/
def SendsEmittedSet (s : State) (tr : List Event) : Prop :=
  (∀ b ∈ instructionBytes .instruction tr, emittedByte s b) ∧ ∀ v, Event.nibble v ∈ tr → v = 0x3#4 ∨ v = 0x2#4

section
variable {s : State} {es : List Event}

@[simp] theorem sendsEmittedSet_nil : SendsEmittedSet s [] := ⟨nofun, nofun⟩
@[simp] theorem sendsEmittedSet_byte {b : Byte} :
    SendsEmittedSet s (.byte b :: es) ↔ emittedByte s b ∧ SendsEmittedSet s es := by
  simp [SendsEmittedSet, instructionBytes, and_assoc]
@[simp] theorem sendsEmittedSet_nibble {v : Nibble} :
    SendsEmittedSet s (.nibble v :: es) ↔ (v = 0x3#4 ∨ v = 0x2#4) ∧ SendsEmittedSet s es := by
  simp [SendsEmittedSet, instructionBytes, and_left_comm]
@[simp] theorem sendsEmittedSet_wait {t : Duration} : SendsEmittedSet s (.wait t :: es) ↔ SendsEmittedSet s es := by
  simp [SendsEmittedSet, instructionBytes]
@[simp] theorem sendsEmittedSet_setup : SendsEmittedSet s (.setup :: es) ↔ SendsEmittedSet s es := by
  simp [SendsEmittedSet, instructionBytes]
@[simp] theorem sendsEmittedSet_backlight {on : Bool} :
    SendsEmittedSet s (.backlight on :: es) ↔ SendsEmittedSet s es := by
  simp [SendsEmittedSet, instructionBytes]

/-- What is sent in data mode is no instruction byte. -/
theorem sendsEmittedSet_dataBlock (bs : List Byte) :
    SendsEmittedSet s (.mode .data :: (bs.map .byte ++ .mode .instruction :: es)) ↔ SendsEmittedSet s es := by
  simp [SendsEmittedSet, instructionBytes, instructionBytes_data]

@[simp] theorem sendsEmittedSet_dataByte {b : Byte} :
    SendsEmittedSet s (.mode .data :: .byte b :: .mode .instruction :: es) ↔ SendsEmittedSet s es :=
  sendsEmittedSet_dataBlock [b]

end

theorem emittedByte_modeByte {s : State} {v : Byte} (hv : v ∈ modeBytes) : emittedByte s v :=
  .inl ((by decide : ∀ v ∈ modeBytes, v ∈ _) v hv)

theorem emittedByte_cntlByte {s : State} {v : Byte} (hv : v ∈ cntlBytes) : emittedByte s v :=
  .inl ((by decide : ∀ v ∈ cntlBytes, v ∈ _) v hv)

theorem emittedByte_funcByte {s : State} {v : Byte} (hv : v ∈ funcBytes) : emittedByte s v :=
  .inl ((by decide : ∀ v ∈ funcBytes, v ∈ _) v hv)

theorem emittedByte_setCgramByte {s : State} {id : Byte} (hid : id.toNat ≤ 7) : emittedByte s (setCgramByte id) :=
  .inl ((by decide : ∀ id : Byte, id.toNat ≤ 7 → setCgramByte id ∈ _) id hid)

theorem emittedByte_setDdramByte {s : State} {x y : Nat} (hx : x < s.w) (hy : y < s.h) :
    emittedByte s (setDdramByte (ddramAddr s.offset x y)) := .inr ⟨x, y, hx, hy, rfl⟩

theorem emittedByte_scroll {s : State} {b : Byte} (hb : b = 0x18#8 ∨ b = 0x1C#8) : emittedByte s b := by
  rcases hb with rfl | rfl <;> exact .inl (by decide)

theorem highNibble_fs8 : highNibble fs8 = 0x3#4 := by decide
theorem highNibble_fs4 : highNibble fs4 = 0x2#4 := by decide

@[simp] theorem emittedByte_clear {s : State} : emittedByte s 0x01#8 := .inl (by decide)
@[simp] theorem emittedByte_home {s : State} : emittedByte s 0x02#8 := .inl (by decide)
@[simp] theorem emittedByte_fs8 {s : State} : emittedByte s fs8 := .inl (by decide)

/-- A line feed sends the address of a cell twice, and data. -/
theorem sendsEmittedSet_linefeed {s : State} (hI : s.Inv) (htr : s.tr = []) (es : List Event) :
    SendsEmittedSet s ((linefeedOp s).tr ++ es) ↔ SendsEmittedSet s es := by
  have haddr := emittedByte_setDdramByte hI.width_pos hI.linefeed_row
  have hblock (es : List Event) := sendsEmittedSet_dataBlock (s := s) (es := es) (List.replicate s.w spaceChar)
  rw [linefeedOp_eq hI.width_pos hI.height_pos]
  simp_all [List.map_replicate, ddramAddr]

theorem Effect.sendsEmittedSet {i : Instr} {s t : State} (h : Effect i s t) (hI : s.Inv) (htr : s.tr = []) :
    SendsEmittedSet s t.tr := by
  cases h with
  | quiet | textMode | tabStep | backlight => simp [htr]
  | scroll b hb => simp [htr, emittedByte_scroll hb]
  | flushMode v hv => simp [htr, emittedByte_modeByte (hv hI.mode)]
  | flushCntl v hv => simp [htr, emittedByte_cntlByte (hv hI.cntl)]
  | shutdown =>
    simp [htr, clearBitOp_cntl, emittedByte_cntlByte (clearBit_mem_cntlBytes _ hI.cntl 2 (by decide))]
  | clear => simp [htr]
  | home => simp [htr, cursorHomeOp]
  | move x y =>
    obtain ⟨hx, hy⟩ := hI.clamped x y
    simp [htr, cursorSetOp, emittedByte_setDdramByte hx hy]
  | backspace =>
    have haddr := emittedByte_setDdramByte hI.backspace_column hI.backspace_row
    simp [htr, backspaceOp_eq hI, haddr]
  | linefeed => simpa using (sendsEmittedSet_linefeed hI htr []).2 sendsEmittedSet_nil
  | print c =>
    by_cases hfull : s.cx = s.w
    · simp [printOp_of_full hfull, sendsEmittedSet_linefeed hI htr]
    · simp [htr, printOp_of_not_full hfull]
  | glyph id b0 b1 b2 b3 b4 b5 b6 b7 hid =>
    have hblock := sendsEmittedSet_dataBlock (s := s) (es := []) [b0, b1, b2, b3, b4, b5, b6, b7]
    rw [setCustomCharOp_eq]
    simp_all [emittedByte_setCgramByte hid]
  | handshake q =>
    have hfunc := emittedByte_funcByte (s := s) (bootstrapFunc_mem_funcBytes q _ hI.func)
    have hcntl := emittedByte_cntlByte (s := s) hI.cntl
    have hon := emittedByte_cntlByte (s := s) (setBit_mem_cntlBytes _ hI.cntl 2 (by decide))
    rw [beginOp_eq]
    cases q <;> simp [htr, bootstrapEvents, hfunc, hcntl, hon, highNibble_fs8, highNibble_fs4]

/-- Settles O43: a fault sends nothing, and each effect sends bytes of the emitted set alone. -/
theorem onlyTheEmittedSetIsSent : Obligations.OnlyTheEmittedSetIsSent := by
  intro s t i hI hi h
  rw [hI.dm]
  obtain ⟨c, rfl⟩ | ⟨r, u, hu, rfl⟩ := exec_request_effect hi h
  · exact sendsEmittedSet_nil (s := s)
  · exact hu.sendsEmittedSet hI.startRequest rfl

/-! The types of responses (30_encoding.md rule R71). -/

/-- A request that does not fault ends in the state that its body makes. -/
theorem exec_request_of_no_fault {s t : State} {i : Instr} (hi : i.isRequest = true) (h : exec i s = .next t)
    (hflt : t.flt = 0x00#8) : Performs i s ∧ t = body i (startRequest s) := by
  obtain ⟨-, hbody | ⟨-, rfl⟩⟩ := exec_request_cases hi h
  · exact hbody
  · exact absurd hflt (faultValue_ne_zero _)

/-- WRITE responds with the count 0 for an unhandled control byte and 1 for every other (44_text_stream.md rule R150). -/
theorem classBody_response (c : Byte) (k : StreamClass) (s : State) :
    (classBody c k s).response = some (.count (if k = .ctlOther then 0 else 1)) := by
  cases k <;> rfl

theorem body_response_count {i : Instr} (hi : i.format = .txt ∨ ∃ c, i = .write c) (s : State) :
    ∃ n, n ≤ 1 ∧ (body i s).response = some (.count n) := by
  obtain hi | ⟨c, rfl⟩ := hi
  · cases i with
    | writeCtlOther => exact ⟨0, Nat.zero_le _, rfl⟩
    | _ => cases hi <;> exact ⟨1, le_rfl, rfl⟩
  · exact ⟨_, by split <;> decide, classBody_response c (streamClass c) s⟩

theorem body_response_none {i : Instr} {s : State} (hp : Performs i s) (hi : i.format = .req)
    (hv : i ∉ [.beginReq, .endReq, .cursorGet, .tabStepGet]) (hw : ∀ c, i ≠ .write c) (s' : State) :
    (body i s').response = some .none := by
  cases i with
  | reserved => exact hp.elim
  | write c => exact absurd rfl (hw c)
  | beginReq | endReq | cursorGet | tabStepGet => simp at hv
  | _ => cases hi <;> rfl

/-- The column and the row of an engine that meets the invariant fit a byte each. -/
theorem State.Inv.cursor_lt {s : State} (hI : s.Inv) : s.cx < 256 ∧ s.cy < 256 := by
  obtain ⟨-, hh, -⟩ := geometryAdmitted_iff.1 hI.geometry
  have hw := hI.addr_le (Nat.sub_lt hI.width_pos Nat.one_pos) hI.height_pos
  have := hI.cx
  have := hI.cy
  omega

theorem pos_bytes (x y : Byte) : (Response.pos x.toNat y.toNat).bytes = [x, y] := by simp [Response.bytes]

/-- Settles O51: a request that does not fault performs its body, and each body has its one type of response. -/
theorem responsesHaveTheirTypes : Obligations.ResponsesHaveTheirTypes := by
  intro s t i hI hi h hflt
  obtain ⟨hp, rfl⟩ := exec_request_of_no_fault hi h hflt
  refine ⟨?_, fun htxt => ?_, ?_, ?_, fun hv hreq hw => ⟨body_response_none hp hreq hv hw _, rfl⟩⟩
  · rintro (rfl | rfl) <;> exact ⟨rfl, rfl⟩
  · obtain ⟨n, hn, hr⟩ := body_response_count htxt (startRequest s)
    exact ⟨n, hn, hr, rfl⟩
  · rintro rfl
    obtain ⟨hx, hy⟩ := hI.cursor_lt
    refine ⟨BitVec.ofNat 8 s.cx, BitVec.ofNat 8 s.cy, ?_, pos_bytes _ _⟩
    simp [body, Nat.mod_eq_of_lt hx, Nat.mod_eq_of_lt hy]
  · rintro rfl
    exact ⟨s.tab, hI.tab, rfl, rfl⟩

end Sys2Proof.Machine
end

