-- ==== Sys2Proof/Proofs/Initialization.lean ====
section
/-! PROOFS. The initialization handshake (41_initialization.md): the whole effect of BEGIN and of END, and that no other
instruction writes INIT. -/

namespace Sys2Proof.Machine

/-! Only BEGIN and END write INIT (41_initialization.md rule R104). -/

@[simp] theorem linefeedOp_init (s : State) : (linefeedOp s).init = s.init := by simp [linefeedOp, cursorSetOp, datAll_eq]

@[simp] theorem printOp_init (c : Byte) (s : State) : (printOp c s).init = s.init := by
  by_cases hfull : s.cx = s.w
  · simp [printOp_of_full hfull]
  · simp [printOp_of_not_full hfull]

/-- The handshake ends in READY, the shutdown in SHUTDOWN, and every other effect leaves INIT as it was. -/
theorem Effect.init_cases {i : Instr} {s t : State} (h : Effect i s t) :
    t.init = s.init ∨ (i = .beginReq ∧ t.init = .ready) ∨ (i = .endReq ∧ t.init = .shutdown) := by
  cases h with
  | quiet | textMode | tabStep | scroll | backlight | flushMode | flushCntl | clear | home | move => exact .inl rfl
  | backspace => exact .inl (printOp_init spaceChar _)
  | linefeed => exact .inl (linefeedOp_init s)
  | print c => exact .inl (printOp_init c s)
  | glyph => exact .inl (by rw [setCustomCharOp_eq])
  | handshake q hi => exact .inr (.inl ⟨hi, rfl⟩)
  | shutdown hi => exact .inr (.inr ⟨hi, rfl⟩)

/-- Settles O18: a fault and an emitted row leave INIT alone, and the admission of BEGIN and of END says which INIT state
their effects begin in. -/
theorem onlyBeginAndEndChangeInit : Obligations.OnlyBeginAndEndChangeInit := by
  intro s t i h
  cases hi : i.isRequest with
  | true =>
    obtain ⟨-, ⟨hp, rfl⟩ | ⟨-, rfl⟩⟩ := exec_request_cases hi h
    · obtain ⟨r, u, hu, hbody⟩ := body_effect (s := startRequest s) hi hp
      rw [hbody]
      obtain hsame | ⟨rfl, hready⟩ | ⟨rfl, hshut⟩ := hu.init_cases
      · exact .inl hsame
      · exact .inr (.inl ⟨rfl, hp, hready⟩)
      · exact .inr (.inr ⟨rfl, hp, hshut⟩)
    · exact .inl rfl
  | false =>
    obtain ⟨-, ⟨e, rfl⟩, -⟩ := exec_emitted_cases hi h
    exact .inl rfl

/-! BEGIN (41_initialization.md rules R100 to R102). -/

/-- From either legal value of FUNC the bootstrap leaves the one that the transport's answer asks for. -/
theorem bootstrapFunc_eq : ∀ q, ∀ v ∈ funcBytes, bootstrapFunc q v = if q then 0x38#8 else 0x28#8 := by decide

/-- The bootstrap's events with their bytes and nibbles written out (41_initialization.md rules R101, R102). -/
theorem bootstrapEvents_eq (q : Bool) :
    bootstrapEvents q =
      if q then [.byte 0x30#8]
      else [.nibble 0x3#4, .wait .initLong, .nibble 0x3#4, .wait .initShort, .nibble 0x3#4, .wait .initShort,
        .nibble 0x2#4, .wait .initShort] := by
  cases q <;> decide

/-- Settles O16: admitted, BEGIN performs the handshake from the legal values that the invariant gives FUNC; in READY it
raises its fault. -/
theorem beginHandshake : Obligations.BeginHandshake := by
  refine ⟨rfl, fun s hI hf => ?_⟩
  obtain ⟨hbody, hfault⟩ := exec_request hf .beginReq rfl
  refine ⟨fun hstart => ?_, fun hready => ?_⟩
  · rw [hbody hstart, body, beginOp_eq]
    simp only [startRequest_func, bootstrapFunc_eq _ _ hI.func, bootstrapEvents_eq]
    rfl
  · exact hfault (by simp [Performs, hready])

/-! END (41_initialization.md rule R103). -/

/-- A request that `whenReady` admits has the effect of its body in READY, and faults with `F_NOT_READY` elsewhere. -/
theorem readyOnly_of_whenReady {i : Instr} {effect : State → State}
    (hexec : ∀ s, exec i s = whenReady s (body i)) (heffect : ∀ s, body i (startRequest s) = effect s) :
    ReadyOnly i effect := by
  intro s hf
  obtain ⟨hready, hfault⟩ := whenReady_eq hf (body i)
  rw [hexec, ← heffect]
  exact ⟨hready, hfault⟩

/-- Settles O17: END is a request that `whenReady` admits, and its body clears CNTL[2] and sends the new CNTL. -/
theorem endShutsDown : Obligations.EndShutsDown :=
  ⟨rfl, readyOnly_of_whenReady (fun _ => rfl) fun _ => rfl⟩

end Sys2Proof.Machine
end

