-- ==== Sys2Proof/Proofs/CommandEncoding.lean ====
section
/-! PROOFS. The command requests (42_command_encoding.md): the whole next state of each, where INIT admits it and elsewhere,
from what its operation writes and sends. -/

namespace Sys2Proof.Machine

/-! Mirror toggles (42_command_encoding.md rules R110 to R120). -/

/-- What a toggle request makes of a state: the mirror's new byte `v` written, and sent whole as the one event. -/
def toggled (m : Mirror) (v : Byte) (s : State) : State :=
  { writeMirror m v s with tr := [.byte v], response := some .none }

@[simp] theorem mirrorValue_startRequest (m : Mirror) (s : State) : mirrorValue m (startRequest s) = mirrorValue m s := by
  cases m <;> rfl

theorem respond_flush_eq_toggled (m : Mirror) (v : Byte) (s : State) :
    respond .none (cmd v (writeMirror m v (startRequest s))) = toggled m v s := by
  cases m <;> rfl

section
variable {i : Instr} (m : Mirror) (k : Nat) (hexec : ∀ s, exec i s = whenReady s (body i))
include hexec

/-- A READY-only request whose body is `set_bit_op(M, k)`. -/
theorem readyOnly_of_setBitOp (hbody : ∀ s, body i s = respond .none (setBitOp m k s)) :
    ReadyOnly i fun s => toggled m (setBit (mirrorValue m s) k) s :=
  readyOnly_of_whenReady hexec fun s => by
    rw [hbody, setBitOp, mirrorValue_startRequest, respond_flush_eq_toggled]

/-- A READY-only request whose body is `clear_bit_op(M, k)`. -/
theorem readyOnly_of_clearBitOp (hbody : ∀ s, body i s = respond .none (clearBitOp m k s)) :
    ReadyOnly i fun s => toggled m (clearBit (mirrorValue m s) k) s :=
  readyOnly_of_whenReady hexec fun s => by
    rw [hbody, clearBitOp, mirrorValue_startRequest, respond_flush_eq_toggled]

end

/-- Settles O19: each request sets or clears its bit of CNTL, display bit 2, underline bit 1 and blink bit 0. -/
theorem displayControlRequests : Obligations.DisplayControlRequests :=
  ⟨⟨rfl, readyOnly_of_setBitOp .cntl 2 (fun _ => rfl) fun _ => rfl⟩,
    ⟨rfl, readyOnly_of_clearBitOp .cntl 2 (fun _ => rfl) fun _ => rfl⟩,
    ⟨rfl, readyOnly_of_setBitOp .cntl 1 (fun _ => rfl) fun _ => rfl⟩,
    ⟨rfl, readyOnly_of_clearBitOp .cntl 1 (fun _ => rfl) fun _ => rfl⟩,
    ⟨rfl, readyOnly_of_setBitOp .cntl 0 (fun _ => rfl) fun _ => rfl⟩,
    ⟨rfl, readyOnly_of_clearBitOp .cntl 0 (fun _ => rfl) fun _ => rfl⟩⟩

/-- Settles O20: each request sets or clears its bit of MODE, increment bit 1 and shift bit 0. -/
theorem entryModeRequests : Obligations.EntryModeRequests :=
  ⟨⟨rfl, readyOnly_of_setBitOp .mode 1 (fun _ => rfl) fun _ => rfl⟩,
    ⟨rfl, readyOnly_of_clearBitOp .mode 1 (fun _ => rfl) fun _ => rfl⟩,
    ⟨rfl, readyOnly_of_setBitOp .mode 0 (fun _ => rfl) fun _ => rfl⟩,
    ⟨rfl, readyOnly_of_clearBitOp .mode 0 (fun _ => rfl) fun _ => rfl⟩⟩

/-! Clear, scroll and backlight (42_command_encoding.md rules R121 to R123, R126, R127). -/

/-- `display_clear_op` homes the cursor and sets MODE[1], and sends the clear and its wait but no MODE byte. -/
theorem displayClearOp_eq (s : State) :
    displayClearOp s =
      { s with
        cx := 0, cy := 0, mode := s.mode ||| 0x02#8, acsp := .ddram
        tr := s.tr ++ [.byte 0x01#8, .wait .longExec] } := by
  simp [displayClearOp, emit, setBit]

/-- Settles O21: DISPLAY_CLEAR and the form feed perform the same operation, and then respond. -/
theorem clearHomesAndSetsIncrement : Obligations.ClearHomesAndSetsIncrement := by
  unfold Obligations.ClearHomesAndSetsIncrement
  intro cleared
  have hclear (r : Response) (s : State) : respond r (displayClearOp (startRequest s)) = cleared r s := by
    rw [displayClearOp_eq]
    rfl
  exact ⟨rfl, readyOnly_of_whenReady (fun _ => rfl) (hclear .none),
    readyOnly_of_whenReady (fun _ => rfl) (hclear (.count 1))⟩

/-- A READY-only request that only sends the byte `b` writes no register. -/
theorem readyOnly_of_cmd {i : Instr} {b : Byte} (hexec : ∀ s, exec i s = whenReady s (body i))
    (hbody : ∀ s, body i s = respond .none (cmd b s)) :
    ReadyOnly i fun s => { s with tr := [.byte b], response := some .none } :=
  readyOnly_of_whenReady hexec fun s => hbody (startRequest s)

/-- Settles O22: each scroll request sends its one byte. -/
theorem scrollRequests : Obligations.ScrollRequests :=
  ⟨⟨rfl, readyOnly_of_cmd (fun _ => rfl) fun _ => rfl⟩, ⟨rfl, readyOnly_of_cmd (fun _ => rfl) fun _ => rfl⟩⟩

/-- A READY-only request that only switches the backlight records what it sent in BL. -/
theorem readyOnly_of_backlight {i : Instr} {on : Bool} (hexec : ∀ s, exec i s = whenReady s (body i))
    (hbody : ∀ s, body i s = respond .none (backlight on s)) :
    ReadyOnly i fun s =>
      { s with bl := if on then .on else .off, tr := [.backlight on], response := some .none } :=
  readyOnly_of_whenReady hexec fun s => hbody (startRequest s)

/-- Settles O24: each backlight request is `bl` of its own value. -/
theorem backlightRequests : Obligations.BacklightRequests :=
  ⟨⟨rfl, readyOnly_of_backlight (on := true) (fun _ => rfl) fun _ => rfl⟩,
    ⟨rfl, readyOnly_of_backlight (on := false) (fun _ => rfl) fun _ => rfl⟩⟩

/-! Requests admitted in every INIT state (42_command_encoding.md rules R124, R125, R128, R129). -/

/-- A request that `inAnyState` admits has the effect of its body. -/
theorem inEveryState_of_inAnyState {i : Instr} {effect : State → State}
    (hexec : ∀ s, exec i s = inAnyState s (body i)) (heffect : ∀ s, body i (startRequest s) = effect s) :
    InEveryState i effect := by
  intro s hf
  rw [hexec, inAnyState_of_running hf, heffect]

/-- Settles O23: each text mode request writes TM and sends nothing. -/
theorem textModeRequests : Obligations.TextModeRequests :=
  ⟨⟨rfl, inEveryState_of_inAnyState (fun _ => rfl) fun _ => rfl⟩,
    ⟨rfl, inEveryState_of_inAnyState (fun _ => rfl) fun _ => rfl⟩⟩

/-- TAB_STEP_SET performs its body for a step that is not 0, and raises its fault for 0. -/
theorem tabStepSet_inEveryState (v : Byte) :
    InEveryState (.tabStepSet v) fun s =>
      if v = 0x00#8 then { s with flt := 0x06#8, tr := [], response := none }
      else { s with tab := v, tr := [], response := some .none } := by
  intro s hf
  obtain ⟨hbody, hfault⟩ := exec_request hf (.tabStepSet v) rfl
  split
  case isTrue hv => exact hfault (not_not_intro hv)
  case isFalse hv => exact hbody hv

/-- Settles O25: TAB_STEP_GET reads TAB, and TAB_STEP_SET writes it or faults. -/
theorem tabStepRequests : Obligations.TabStepRequests :=
  ⟨⟨rfl, inEveryState_of_inAnyState (fun _ => rfl) fun _ => rfl⟩, fun v => ⟨rfl, tabStepSet_inEveryState v⟩⟩

end Sys2Proof.Machine
end

