-- ==== Sys2Proof/Proofs/AddressTranslation.lean ====
section
/-! PROOFS. Address translation and the cursor (43_address_translation.md): the table of admitted geometries, and what the
cursor requests send and where they leave the cursor. -/

namespace Sys2Proof.Machine

/-! The admitted geometries (43_address_translation.md rules R141, R144). -/

@[simp] theorem rowOffsets_get_zero (w h : Nat) : (rowOffsets w h).get 0 = 0#8 := by
  unfold rowOffsets
  split <;> rfl

@[simp] theorem rowOffsets_get_one (w h : Nat) : (rowOffsets w h).get 1 = 64#8 := by
  unfold rowOffsets
  split <;> rfl

@[simp] theorem rowOffsets_get_two (w h : Nat) :
    (rowOffsets w h).get 2 = if w = 16 ∧ h = 4 then 16#8 else 20#8 := by
  unfold rowOffsets
  split <;> rfl

@[simp] theorem rowOffsets_get_three (w h : Nat) :
    (rowOffsets w h).get 3 = if w = 16 ∧ h = 4 then 80#8 else 84#8 := by
  unfold rowOffsets
  split <;> rfl

/-- A display of at most four rows has rows 0 to 3 at most. -/
theorem forall_row_iff {h : Nat} (hh : h ≤ 4) (p : Nat → Prop) :
    (∀ y, y < h → p y) ↔ (0 < h → p 0) ∧ (1 < h → p 1) ∧ (2 < h → p 2) ∧ (3 < h → p 3) := by
  refine ⟨fun hp => ⟨hp 0, hp 1, hp 2, hp 3⟩, fun ⟨h0, h1, h2, h3⟩ y hy => ?_⟩
  have hy4 : y < 4 := by omega
  interval_cases y
  · exact h0 hy
  · exact h1 hy
  · exact h2 hy
  · exact h3 hy

/-- The row that bounds the width is row 0 of one, row 1 of two and of three, and row 3 of four. -/
theorem rows_fit_iff {w h : Nat} (hh : 1 ≤ h) (hh' : h ≤ 4) :
    (∀ y, y < h → ((rowOffsets w h).get y).toNat + w - 1 ≤ 127) ↔
      (h = 1 ∧ w ≤ 128) ∨ ((h = 2 ∨ h = 3) ∧ w ≤ 64) ∨ (h = 4 ∧ (w = 16 ∨ w ≤ 44)) := by
  rw [forall_row_iff hh']
  by_cases h16 : w = 16 ∧ h = 4
  · simp [h16]
  · simp [h16]
    omega

theorem construct_of_admitted {w h : Nat} (hg : geometryAdmitted w h = true) :
    State.construct w h = .next (State.initial w h) := if_pos hg

theorem construct_of_not_admitted {w h : Nat} (hg : ¬ geometryAdmitted w h = true) :
    State.construct w h = .refused (.geometryRefused w h) := if_neg hg

/-- Settles O12: the rows of an admitted height bound the width, and construction tests exactly that. -/
theorem constructionAdmitsWellFormedGeometries : Obligations.ConstructionAdmitsWellFormedGeometries := by
  intro w h admitted
  refine ⟨⟨fun ⟨hh, hh', hw, hrows⟩ => ?_, fun htable => ?_⟩, fun hg => ?_, fun hg => ?_⟩
  · have := (rows_fit_iff hh hh').1 hrows
    omega
  · exact ⟨by omega, by omega, by omega, (rows_fit_iff (by omega) (by omega)).2 (by omega)⟩
  · exact ⟨_, construct_of_admitted (geometryAdmitted_iff.2 hg)⟩
  · exact construct_of_not_admitted (mt geometryAdmitted_iff.1 hg)

/-! The cursor move (43_address_translation.md rules R140, R142). -/

/-- A cursor move sends one byte, the address of the cell it lands on. -/
theorem cursorSetOp_tr (x y : Int) (s : State) :
    (cursorSetOp x y s).tr =
      s.tr ++ [.byte (setDdramByte (ddramAddr s.offset (clampCell s.w s.h x y).1 (clampCell s.w s.h x y).2))] := rfl

/-- Where a cursor move lands, with its column and its row each written as a choice. -/
theorem clampCell_eq_ite (w h : Nat) (x y : Int) :
    clampCell w h x y =
      (if 0 ≤ x ∧ x < w ∧ 0 ≤ y ∧ y < h then x.toNat else 0, if 0 ≤ x ∧ x < w ∧ 0 ≤ y ∧ y < h then y.toNat else 0) := by
  by_cases hout : x < 0 ∨ (w : Int) ≤ x ∨ y < 0 ∨ (h : Int) ≤ y
  · have hnot : ¬ (0 ≤ x ∧ x < w ∧ 0 ≤ y ∧ y < h) := by omega
    rw [clampCell_out_of_range hout, if_neg hnot, if_neg hnot]
  · have hin : 0 ≤ x ∧ x < w ∧ 0 ≤ y ∧ y < h := by omega
    rw [clampCell, if_neg hout, if_pos hin, if_pos hin]

/-- The address of cell (0, 0) is 0, so the byte that homes the cursor is `0x80`. -/
theorem State.Inv.moveTo_origin {s : State} (hI : s.Inv) :
    Machine.moveTo (0, 0) s = { s with cx := 0, cy := 0, acsp := .ddram, tr := s.tr ++ [.byte 0x80#8] } := by
  simp [Machine.moveTo, ddramAddr, hI.row_zero, setDdramByte]

/-! The cursor requests (43_address_translation.md rules R142, R143, R145). -/

/-- CURSOR_SET is the cursor move to its operands in READY, and faults elsewhere. -/
theorem cursorSet_readyOnly (x y : Byte) :
    ReadyOnly (.cursorSet x y) fun s => respond .none (cursorSetOp x.toNat y.toNat (startRequest s)) :=
  readyOnly_of_whenReady (fun _ => rfl) fun _ => rfl

theorem exec_cursorSet_of_ready {s : State} (hr : s.Ready) (x y : Byte) :
    exec (.cursorSet x y) s =
      .next (respond .none (moveTo (clampCell s.w s.h x.toNat y.toNat) (startRequest s))) :=
  (cursorSet_readyOnly x y s hr.1).1 hr.2

theorem exec_cursorSet_in_range {s : State} {x y : Byte} (hr : s.Ready) (hx : x.toNat < s.w) (hy : y.toNat < s.h) :
    exec (.cursorSet x y) s = .next
      { s with
        cx := x.toNat, cy := y.toNat, acsp := .ddram, response := some .none
        tr := [.byte (setDdramByte (ddramAddr s.offset x.toNat y.toNat))] } := by
  rw [exec_cursorSet_of_ready hr, clampCell_in_range hx hy]
  rfl

theorem exec_cursorSet_out_of_range {s : State} {x y : Byte} (hI : s.Inv) (hr : s.Ready)
    (ho : s.w ≤ x.toNat ∨ s.h ≤ y.toNat) :
    exec (.cursorSet x y) s = .next
      { s with cx := 0, cy := 0, acsp := .ddram, response := some .none, tr := [.byte 0x80#8] } := by
  have hcell : clampCell s.w s.h x.toNat y.toNat = (0, 0) := clampCell_out_of_range (by omega)
  rw [exec_cursorSet_of_ready hr, hcell, hI.startRequest.moveTo_origin]
  rfl

/-- CURSOR_GET answers the tracked position and writes no register. -/
theorem cursorGet_inEveryState :
    InEveryState .cursorGet fun s => { s with tr := [], response := some (.pos s.cx s.cy) } :=
  inEveryState_of_inAnyState (fun _ => rfl) fun _ => rfl

/-- Settles O26: the cell a move lands on for all integers, and CURSOR_SET in range, out of range and not admitted. -/
theorem cursorSetRequest : Obligations.CursorSetRequest := by
  refine fun x y => ⟨rfl, fun s hI => ⟨fun a b => ?_, fun hf => (cursorSet_readyOnly x y s hf).2, fun hf hr hx hy => ?_,
    fun hf hr ho => exec_cursorSet_out_of_range hI ⟨hf, hr⟩ ho⟩⟩
  · rw [cursorSetOp, clampCell_eq_ite]
    rfl
  · exact ⟨hI.addr_le hx hy, exec_cursorSet_in_range ⟨hf, hr⟩ hx hy⟩

/-- Settles O27: CURSOR_GET is admitted in every INIT state, and CURSOR_HOME in READY only. -/
theorem cursorGetAndHome : Obligations.CursorGetAndHome :=
  ⟨⟨rfl, cursorGet_inEveryState⟩, ⟨rfl, readyOnly_of_whenReady (fun _ => rfl) fun _ => rfl⟩⟩

/-- Settles O28: CURSOR_GET answers the cell that CURSOR_SET left the cursor on, and every cursor move sends one event. -/
theorem cursorLaws : Obligations.CursorLaws := by
  refine ⟨fun s x y hI hr => ?_, fun s x y => ⟨_, cursorSetOp_tr x y s⟩⟩
  by_cases hin : x.toNat < s.w ∧ y.toNat < s.h
  · refine ⟨_, _, exec_cursorSet_in_range hr hin.1 hin.2, cursorGet_inEveryState _ hr.1, fun _ => ⟨rfl, rfl⟩, fun ho => ?_⟩
    omega
  · have ho : s.w ≤ x.toNat ∨ s.h ≤ y.toNat := by omega
    exact ⟨_, _, exec_cursorSet_out_of_range hI hr ho, cursorGet_inEveryState _ hr.1, fun h => absurd h hin,
      fun _ => ⟨rfl, rfl⟩⟩

end Sys2Proof.Machine
end

