-- ==== Sys2Proof/Proofs/TextStream.lean ====
section
/-! PROOFS. The text stream (44_text_stream.md): WRITE is the rule of its byte's class, the whole next state of each rule, and
what a run of WRITE frames counts and where it leaves the cursor. -/

namespace Sys2Proof.Machine

/-! Admission (44_text_stream.md rule R150). -/

/-- A row of format TXT is its body, admitted in READY. -/
theorem exec_of_format_txt {i : Instr} (hi : i.format = .txt) (s : State) : exec i s = whenReady s (body i) := by
  cases i <;> cases hi <;> rfl

theorem exec_txt_of_ready {i : Instr} {s : State} (hi : i.format = .txt) (hr : s.Ready) :
    exec i s = .next (body i (startRequest s)) := by
  rw [exec_of_format_txt hi, whenReady_of_ready hr]

/-- Settles O36: every row of format TXT is admitted in READY only. -/
theorem textNeedsReady : Obligations.TextNeedsReady := by
  intro s i hf hr hi
  rw [exec_of_format_txt hi, whenReady_of_not_ready hf hr]
  rfl

/-! WRITE by the class of its byte (30_encoding.md rule R75, 44_text_stream.md rule R150). -/

theorem exec_write_eq_whenReady (c : Byte) (s : State) : exec (.write c) s = whenReady s (classBody c (streamClass c)) := by
  simp only [exec, execWrite]
  cases streamClass c <;> rfl

theorem format_decodeStreamByte (c : Byte) : (decodeStreamByte c).format = .txt := by
  unfold decodeStreamByte
  cases streamClass c <;> rfl

theorem body_decodeStreamByte (c : Byte) : body (decodeStreamByte c) = classBody c (streamClass c) := by
  unfold decodeStreamByte
  cases streamClass c <;> rfl

/-- WRITE is the instruction that its byte decodes to as a stream byte. -/
theorem exec_write (c : Byte) (s : State) : exec (.write c) s = exec (decodeStreamByte c) s := by
  rw [exec_write_eq_whenReady, exec_of_format_txt (format_decodeStreamByte c), body_decodeStreamByte]

theorem decodeStreamByte_of_ctlOther : ∀ c : Byte,
    c.toNat ≤ 0x06 ∨ c = 0x0B#8 ∨ (0x0E ≤ c.toNat ∧ c.toNat ≤ 0x1F) → decodeStreamByte c = .writeCtlOther c := by decide

theorem decodeStreamByte_of_printable : ∀ c : Byte, 0x20 ≤ c.toNat → decodeStreamByte c = .writePrintable c := by decide

/-! No effect of a request writes FLT (60_exceptions.md rule R181). -/

@[simp] theorem linefeedOp_flt (s : State) : (linefeedOp s).flt = s.flt := by simp [linefeedOp, cursorSetOp, datAll_eq]

@[simp] theorem printOp_flt (c : Byte) (s : State) : (printOp c s).flt = s.flt := by
  by_cases hfull : s.cx = s.w
  · simp [printOp_of_full hfull]
  · simp [printOp_of_not_full hfull]

theorem Effect.flt {i : Instr} {s t : State} (h : Effect i s t) : t.flt = s.flt := by
  cases h with
  | quiet | textMode | tabStep | scroll | backlight | flushMode | flushCntl | shutdown | clear | home | move => rfl
  | backspace => exact printOp_flt spaceChar _
  | linefeed => exact linefeedOp_flt s
  | print c => exact printOp_flt c s
  | glyph => rw [setCustomCharOp_eq]
  | handshake => rw [beginOp_eq]

/-- In READY, WRITE has its effect and responds with the count of its byte, 0 for an unhandled control byte. -/
theorem exec_write_effect {s : State} (hr : s.Ready) (c : Byte) :
    ∃ u, Effect (.write c) (startRequest s) u ∧
      exec (.write c) s = .next (respond (.count (if streamClass c = .ctlOther then 0 else 1)) u) := by
  obtain ⟨r, u, hu, hbody⟩ := write_effect c (startRequest s)
  have hresponse := classBody_response c (streamClass c) (startRequest s)
  rw [hbody, respond_response, Option.some.injEq] at hresponse
  exact ⟨u, hu, by rw [exec_write_eq_whenReady, whenReady_of_ready hr, hbody, hresponse]⟩

/-- Settles O29: WRITE is the instruction its byte decodes to, and responds with the count of that class. -/
theorem writeRunsItsClass : Obligations.WriteRunsItsClass := by
  refine fun c s => ⟨rfl, fun hc => hc ▸ exec_write _ s, fun hc => hc ▸ exec_write _ s, fun hc => hc ▸ exec_write _ s,
    fun hc => hc ▸ exec_write _ s, fun hc => hc ▸ exec_write _ s, fun hc => hc ▸ exec_write _ s, fun hc => ?_, fun hc => ?_,
    fun hr => ?_, fun hf hr => ?_⟩
  · rw [exec_write, decodeStreamByte_of_ctlOther c hc]
  · rw [exec_write, decodeStreamByte_of_printable c hc]
  · obtain ⟨u, hu, hexec⟩ := exec_write_effect hr c
    exact ⟨_, hexec, hu.flt.trans hr.1, rfl⟩
  · exact exec_write c s ▸ textNeedsReady s _ hf hr (format_decodeStreamByte c)

/-! The byte rules (44_text_stream.md rules R151 to R158). -/

/-- Settles O30: both rows are admitted in READY only, BEL inverts TM, and CTL_OTHER only responds. -/
theorem belAndUnhandledCodes : Obligations.BelAndUnhandledCodes := by
  refine ⟨readyOnly_of_whenReady (fun _ => rfl) fun s => ?_, fun c => readyOnly_of_whenReady (fun _ => rfl) fun _ => rfl⟩
  have hinverse : s.tm.inverse = if s.tm = .normal then .inverted else .normal := by cases s.tm <;> rfl
  rw [← hinverse]
  rfl

/-- Settles O31: the body of BS is the backspace, and the data mode it ends in is the invariant's. -/
theorem backspaceErasesOneCell : Obligations.BackspaceErasesOneCell := by
  intro s hI hr x y address
  have hbody : body .writeBs (startRequest s) = respond (.count 1) (backspaceOp (startRequest s)) := rfl
  rw [exec_txt_of_ready rfl hr, hbody, backspaceOp_eq hI.startRequest]
  simp [respond, startRequest, hI.dm, x, y, address, setDdramByte, ddramAddr, spaceChar]

/-- The cell a tab moves to: the target column of the row, or (0, 0) where that is at or past the width. -/
theorem tab_cell {w h y : Nat} (hy : y < h) (nx : Nat) :
    clampCell w h nx (y + if w ≤ nx then 1 else 0 : Nat) = (if nx < w then nx else 0, if nx < w then y else 0) := by
  by_cases hx : nx < w
  · simp [hx, Nat.not_le.2 hx, clampCell_in_range hx hy]
  · rw [clampCell_out_of_range (by omega), if_neg hx, if_neg hx]

/-- Settles O32: HT is the cursor move to the tab's cell. -/
theorem tabMovesToTheNextStop : Obligations.TabMovesToTheNextStop := by
  intro s hI hr nx x y
  have hcell : clampCell s.w s.h nx (s.cy + if s.w ≤ nx then 1 else 0 : Nat) = (x, y) := tab_cell hI.cy nx
  have hbody : body .writeHt (startRequest s) =
      respond (.count 1) (moveTo (clampCell s.w s.h nx (s.cy + if s.w ≤ nx then 1 else 0 : Nat)) (startRequest s)) := rfl
  rw [exec_txt_of_ready rfl hr, hbody, hcell]
  rfl

/-- The byte that addresses the start of a row whose table entry is `b`. -/
theorem setDdramByte_toNat (b : Byte) : setDdramByte b.toNat = 0x80#8 ||| b := by simp [setDdramByte]

/-- Settles O33: CR is the cursor move to column 0 of the row, which is a cell of the display. -/
theorem carriageReturnKeepsTheRow : Obligations.CarriageReturnKeepsTheRow := by
  intro s hI hr
  have hcell : clampCell s.w s.h 0 s.cy = (0, s.cy) := clampCell_in_range (x := 0) hI.width_pos hI.cy
  have hbody : body .writeCr (startRequest s) =
      respond (.count 1) (moveTo (clampCell s.w s.h 0 s.cy) (startRequest s)) := rfl
  rw [exec_txt_of_ready rfl hr, hbody, hcell, ← setDdramByte_toNat]
  rfl

/-- The line feed of a request: the row's address around its spaces, the data mode at the end being the invariant's. -/
theorem State.Inv.linefeedOp_startRequest {s : State} (hI : s.Inv) :
    let y := if s.cy + 1 < s.h then s.cy + 1 else 0
    let address : Event := .byte (0x80#8 ||| s.offset.get y)
    Machine.linefeedOp (Machine.startRequest s) =
      { s with
        cx := 0, cy := y, acsp := .ddram, response := none
        tr := [address, .mode .data] ++ List.replicate s.w (.byte 0x20#8) ++ [.mode .instruction, address] } := by
  rw [linefeedOp_eq (s := Machine.startRequest s) hI.width_pos hI.height_pos]
  simp [Machine.startRequest, hI.dm, setDdramByte_toNat, spaceChar]

/-- Settles O34: the body of LF is the line feed. -/
theorem lineFeedBlanksTheNextRow : Obligations.LineFeedBlanksTheNextRow := by
  intro s hI hr y address
  have hbody : body .writeLf (startRequest s) = respond (.count 1) (linefeedOp (startRequest s)) := rfl
  rw [exec_txt_of_ready rfl hr, hbody, hI.linefeedOp_startRequest]
  rfl

/-- Settles O35: the body of PRINTABLE is the printable write, on a line that is not full and on one that is. -/
theorem printableByteAdvances : Obligations.PrintableByteAdvances := by
  intro c s hI hr y address
  have hbody : body (.writePrintable c) (startRequest s) = respond (.count 1) (printOp c (startRequest s)) := rfl
  rw [exec_txt_of_ready rfl hr, hbody]
  refine ⟨fun hx => ?_, fun hfull => ?_⟩
  · rw [printOp_of_not_full (s := startRequest s) hx.ne]
    simp [respond, startRequest, hI.dm]
  · rw [printOp_of_full (s := startRequest s) hfull, hI.linefeedOp_startRequest]
    simp [respond, hI.dm, y, address]

/-! Runs of WRITE frames (30_encoding.md rule R85, 44_text_stream.md rule R160). -/

theorem run_of_step {M : Host.Core} {s t : M.State} (h : M.step s = .next t) (k : Nat) : M.run (k + 1) s = M.run k t := by
  rw [Host.Core.run, h]

/-- A READY engine between two requests that has exactly the WRITE frames of `bytes` waiting. -/
structure Printing (bytes : List Byte) (s : State) : Prop where
  inv : s.Inv
  ready : s.Ready
  pending : s.pending = printFrames bytes

/-- The engine that has taken the oldest WRITE frame and has the frames of `bytes` left. -/
theorem Printing.taken {c : Byte} {bytes : List Byte} {s : State} (h : Printing (c :: bytes) s) :
    Printing bytes { s with pending := printFrames bytes } :=
  ⟨{ h.inv with }, h.ready, rfl⟩

theorem Printing.step_eq {c : Byte} {bytes : List Byte} {s t : State} (h : Printing (c :: bytes) s)
    (hexec : exec (.write c) { s with pending := printFrames bytes } = .next t) :
    step s = .next (recordObservation t) := by
  have hd : decode (encode (.write c)) = .instr (.write c) [] := rfl
  rw [step_of_frame h.ready.1 h.pending, takeFrame_of_instr hd, framesAfter]
  exact congrArg recordResult hexec

/-- A step takes the oldest WRITE frame and observes the count of its byte. -/
theorem Printing.step {c : Byte} {bytes : List Byte} {s : State} (h : Printing (c :: bytes) s) :
    ∃ t o, Machine.step s = .next t ∧ Printing bytes t ∧ t.observed = s.observed ++ [o] ∧
      o.response = .count (if streamClass c = .ctlOther then 0 else 1) := by
  obtain ⟨u, hu, hexec⟩ := exec_write_effect h.taken.ready c
  have hstep := h.step_eq hexec
  have hw := hu.onlyWriters h.taken.inv.startRequest
  obtain ⟨-, -, -, -, hpending, hobserved⟩ := hw.frame
  have hinit : u.init = s.init := not_not.1 fun hne => by simpa using hw.init hne
  exact ⟨_, ⟨_, u.tr⟩, hstep, ⟨step_inv h.inv hstep, ⟨hw.flt.trans h.ready.1, hinit.trans h.ready.2⟩, hpending⟩,
    congrArg (· ++ _) hobserved, rfl⟩

theorem sumCounts_cons {o : Observation} {n : Nat} (h : o.response = .count n) (os : List Observation) :
    sumCounts (o :: os) = n + sumCounts os := by simp [sumCounts, h]

theorem Printing.run {bytes : List Byte} {s : State} (h : Printing bytes s) :
    ∃ t new, Host.Core.run core bytes.length s = .next t ∧ Printing [] t ∧ t.observed = s.observed ++ new ∧
      new.length = bytes.length ∧ sumCounts new = bytes.countP fun c => streamClass c != .ctlOther := by
  induction bytes generalizing s with
  | nil => exact ⟨s, [], rfl, h, by simp, rfl, rfl⟩
  | cons c bytes ih =>
    obtain ⟨u, o, hstep, hu, hobs, hcount⟩ := h.step
    obtain ⟨t, new, hrun, ht, hnew, hlen, hsum⟩ := ih hu
    refine ⟨t, o :: new, (run_of_step hstep _).trans hrun, ht, by simp [hnew, hobs], by simp [hlen], ?_⟩
    rw [sumCounts_cons hcount, hsum, List.countP_cons, Nat.add_comm]
    simp

/-- Settles O37: each step of the run takes the frame of one byte and observes its count. -/
theorem printCountsHandledBytes : Obligations.PrintCountsHandledBytes := by
  intro bytes s hI hr hp
  obtain ⟨t, new, hrun, ht, hnew, hlen, hsum⟩ := (Printing.mk hI hr hp).run
  exact ⟨t, new, hrun, ht.pending, ht.ready.1, hnew, hlen, hsum⟩

/-! Printable bytes in a run (10_state.md rule R27, 44_text_stream.md rule R160). -/

theorem exec_write_of_printable {c : Byte} (hc : 0x20 ≤ c.toNat) (s : State) :
    exec (.write c) s = exec (.writePrintable c) s := by
  rw [exec_write, decodeStreamByte_of_printable c hc]

/-- On a line that is not full, a printable byte advances the column by one. -/
theorem Printing.step_advances {c : Byte} {bytes : List Byte} {s : State} (h : Printing (c :: bytes) s)
    (hc : 0x20 ≤ c.toNat) (hx : s.cx < s.w) :
    ∃ t, Machine.step s = .next t ∧ Printing bytes t ∧ t.cx = s.cx + 1 ∧ t.cy = s.cy ∧ t.w = s.w ∧ t.h = s.h := by
  have hexec := (printableByteAdvances c _ h.taken.inv h.taken.ready).1 hx
  have hstep := h.step_eq ((exec_write_of_printable hc _).trans hexec)
  obtain ⟨t, o, ht, hprinting, -⟩ := h.step
  cases hstep.symm.trans ht
  exact ⟨_, hstep, hprinting, rfl, rfl, rfl, rfl⟩

/-- On a full line that is not the last, a printable byte ends at column 1 of the next row. -/
theorem Printing.step_wraps {c : Byte} {bytes : List Byte} {s : State} (h : Printing (c :: bytes) s)
    (hc : 0x20 ≤ c.toNat) (hfull : s.cx = s.w) (hy : s.cy + 1 < s.h) :
    ∃ t, Machine.step s = .next t ∧ t.cx = 1 ∧ t.cy = s.cy + 1 := by
  have hexec := (printableByteAdvances c _ h.taken.inv h.taken.ready).2 hfull
  have hstep := h.step_eq ((exec_write_of_printable hc _).trans hexec)
  exact ⟨_, hstep, rfl, if_pos hy⟩

/-- Printable bytes that fit the rest of the row advance the column by their number. -/
theorem Printing.run_advances {bytes rest : List Byte} {s : State} (h : Printing (bytes ++ rest) s)
    (hc : ∀ b ∈ bytes, 0x20 ≤ b.toNat) (hx : s.cx + bytes.length ≤ s.w) :
    ∃ t, Host.Core.run core bytes.length s = .next t ∧ Printing rest t ∧ t.cx = s.cx + bytes.length ∧ t.cy = s.cy ∧
      t.w = s.w ∧ t.h = s.h := by
  induction bytes generalizing s with
  | nil => exact ⟨s, rfl, h, rfl, rfl, rfl, rfl⟩
  | cons c bytes ih =>
    obtain ⟨hc, hbytes⟩ := List.forall_mem_cons.1 hc
    rw [List.length_cons] at hx ⊢
    obtain ⟨u, hstep, hu, hcx, hcy, hw, hh⟩ := Printing.step_advances h hc (by omega)
    obtain ⟨t, hrun, ht, hcx', hcy', hw', hh'⟩ := ih hu hbytes (by omega)
    exact ⟨t, (run_of_step hstep _).trans hrun, ht, by omega, hcy'.trans hcy, hw'.trans hw, hh'.trans hh⟩

/-- Settles O38: the run of the bytes of the line fills it, and the step after it wraps. -/
theorem fullLineThenWrap : Obligations.FullLineThenWrap := by
  intro bytes c s hI hr hx hy hlen hbytes hc hp
  obtain ⟨t, hrun, ht, htx, hty, htw, hth⟩ := Printing.run_advances ⟨hI, hr, hp⟩ hbytes (by omega)
  obtain ⟨u, hstep, hux, huy⟩ := ht.step_wraps hc (by omega) (by omega)
  exact ⟨t, u, hlen ▸ hrun, by omega, hty, hstep, hux, by omega⟩

end Sys2Proof.Machine
end

