-- ==== Sys2Proof/Proofs/CustomChar.lean ====
section
/-! PROOFS. Custom characters (45_custom_char.md): the whole next state of SET_CUSTOM_CHAR, the CGRAM addresses its bitmap
bytes go to, and that WRITE of an identity sends nothing. -/

namespace Sys2Proof.Machine

/-! SET_CUSTOM_CHAR (45_custom_char.md rule R170). -/

/-- The set-CGRAM-address byte of a slot carries `8·id` (30_encoding.md rule R78). -/
theorem setCgramByte_eq (id : Byte) : setCgramByte id = 0x40#8 ||| BitVec.ofNat 8 (8 * id.toNat) := by
  have hshift : id <<< 3 = BitVec.ofNat 8 (8 * id.toNat) := by
    apply BitVec.eq_of_toNat_eq
    simp [Nat.shiftLeft_eq, Nat.mul_comm]
  rw [setCgramByte, hshift]

/-- In READY, with an identity at most 7, SET_CUSTOM_CHAR sends the slot's address and the bitmap. -/
theorem exec_setCustomChar_of_ready {s : State} {id : Byte} (hr : s.Ready) (hid : id.toNat ≤ 7)
    (b0 b1 b2 b3 b4 b5 b6 b7 : Byte) :
    exec (.setCustomChar id b0 b1 b2 b3 b4 b5 b6 b7) s = .next
      { s with
        dm := .instruction, acsp := .cgram, response := some .none
        tr := [.byte (setCgramByte id), .mode .data] ++ [b0, b1, b2, b3, b4, b5, b6, b7].map .byte ++
          [.mode .instruction] } := by
  have hexec := (exec_request hr.1 (.setCustomChar id b0 b1 b2 b3 b4 b5 b6 b7) rfl).1 ⟨hr.2, hid⟩
  rw [hexec, body, setCustomCharOp_eq]
  rfl

/-- Settles O39: SET_CUSTOM_CHAR performs its body where READY admits it with an identity at most 7, and elsewhere raises
the fault of the condition that fails, readiness first. -/
theorem setCustomCharRequest : Obligations.SetCustomCharRequest := by
  intro id b0 b1 b2 b3 b4 b5 b6 b7 i
  refine ⟨rfl, fun s hf => ⟨fun hr => ?_, fun hr hid => ?_, fun hr hid => ?_⟩⟩
  · have hfault : requestFault i s = .notReady := if_neg hr
    rw [(exec_request hf i rfl).2 fun hp => hr hp.1, hfault]
    rfl
  · have hfault : requestFault i s = .badCharId := if_pos hr
    rw [(exec_request hf i rfl).2 fun hp => absurd hp.2 (by omega), hfault]
    rfl
  · rw [exec_setCustomChar_of_ready ⟨hf, hr⟩ hid, setCgramByte_eq]
    rfl

/-! Where the bitmap goes (45_custom_char.md rule R171), as the address counter of log entry 14 reads the trace. -/

/-- How far `k` data bytes move the address, upward or downward. -/
def displacement (up : Bool) (k : Nat) : Int := if up then (k : Int) else -(k : Int)

theorem displacement_zero (up : Bool) : displacement up 0 = 0 := by cases up <;> rfl

theorem displacement_succ (up : Bool) (k : Nat) : displacement up (k + 1) = displacement up 1 + displacement up k := by
  unfold displacement
  split <;> omega

/-- A data byte is written at the counter's address, and the next one goes one step on in the direction it counts. -/
theorem addressedWrites_dataByte {a : AddressCounter} (ha : a.dm = .data) (b : Byte) (es : List Event) :
    addressedWrites a (.byte b :: es) =
      (a.space, a.address, b) :: addressedWrites { a with address := a.address + displacement a.increment 1 } es := by
  have hevent : a.event (.byte b) = { a with address := a.address + displacement a.increment 1 } := by
    cases hup : a.increment <;> simp [AddressCounter.event, displacement, ha, hup, sub_eq_add_neg]
  rw [addressedWrites, if_pos ha, hevent]

/-- A block of data bytes goes to successive addresses from the counter's on, and the end of data mode writes nothing. -/
theorem addressedWrites_dataBlock {a : AddressCounter} (ha : a.dm = .data) (bs : List Byte) (m : DataMode) :
    addressedWrites a (bs.map .byte ++ [.mode m]) =
      bs.zipIdx.map fun p => (a.space, a.address + displacement a.increment p.2, p.1) := by
  induction bs generalizing a with
  | nil => rfl
  | cons b bs ih =>
    rw [List.map_cons, List.cons_append, addressedWrites_dataByte ha, ih (by exact ha), List.zipIdx_cons, List.zipIdx_succ]
    simp [displacement_zero, ← displacement_succ, add_assoc]

/-- The slot's address, sent in instruction mode, puts the counter on `8·id` in CGRAM and writes nothing. -/
theorem addressedWrites_setCgramByte {a : AddressCounter} (ha : a.dm = .instruction) {id : Byte} (hid : id.toNat ≤ 7)
    (es : List Event) :
    addressedWrites a (.byte (setCgramByte id) :: es) =
      addressedWrites { a with space := .cgram, address := 8 * id.toNat } es := by
  have hslot : (id.setWidth 3).toNat = id.toNat := by simp only [BitVec.toNat_setWidth]; omega
  rw [addressedWrites, if_neg (by simp [ha]), AddressCounter.event_setCgramByte ha hid, hslot]

/-- Settles O40: the slot's address puts the counter on `8·id`, and the bitmap is a block of data bytes from there. -/
theorem glyphBytesFillTheirSlot : Obligations.GlyphBytesFillTheirSlot := by
  intro id b0 b1 b2 b3 b4 b5 b6 b7 s a hr hid ha
  refine ⟨_, exec_setCustomChar_of_ready hr hid b0 b1 b2 b3 b4 b5 b6 b7, ?_⟩
  calc addressedWrites a ([.byte (setCgramByte id), .mode .data] ++
        [b0, b1, b2, b3, b4, b5, b6, b7].map .byte ++ [.mode .instruction])
    _ = addressedWrites { a with dm := .data, space := .cgram, address := 8 * id.toNat }
        ([b0, b1, b2, b3, b4, b5, b6, b7].map .byte ++ [.mode .instruction]) := addressedWrites_setCgramByte ha hid _
    _ = _ := addressedWrites_dataBlock rfl _ _

/-! The identities as stream bytes (45_custom_char.md rule R172). -/

/-- A byte from 0 to 7 is a control code with no event: BEL, or an unhandled one (90_conflicts.md C7). -/
theorem streamClass_of_identity : ∀ c : Byte, c.toNat ≤ 7 → streamClass c = .bel ∨ streamClass c = .ctlOther := by decide

/-- Settles O41: WRITE raises its fault, which emits nothing, or performs the rule of BEL or of an unhandled code, neither of
which emits an event. -/
theorem identitiesAreNeverShown : Obligations.IdentitiesAreNeverShown := by
  intro s t c hc h
  obtain ⟨-, ⟨-, rfl⟩ | ⟨-, rfl⟩⟩ := exec_request_cases rfl h
  · have hbody : body (.write c) = classBody c (streamClass c) := rfl
    rw [hbody]
    obtain hbel | hother := streamClass_of_identity c hc
    · rw [hbel]
      rfl
    · rw [hother]
      rfl
  · rfl

end Sys2Proof.Machine
end

