-- ==== Sys2Proof/Proofs/Exceptions.lean ====
section
/-! PROOFS. Exceptions (60_exceptions.md): a fault is precise and final, the priority of faults, the admission of requests by
INIT, and the waits of each request. -/

namespace Sys2Proof.Machine

/-! A fault is precise and final (60_exceptions.md rule R181). -/

theorem faultValue_mem (c : FaultCode) : faultValue c ∈ [0x01#8, 0x02#8, 0x03#8, 0x04#8, 0x05#8, 0x06#8] := by
  cases c <;> decide

theorem faultValue_inj {c d : FaultCode} : faultValue c = faultValue d ↔ c = d := by
  cases c <;> cases d <;> decide

/-- An instruction that leaves FLT not 0 raised a fault. -/
theorem exec_faulting {s t : State} {i : Instr} (hf : s.flt = 0x00#8) (h : exec i s = .next t) (hflt : t.flt ≠ 0x00#8) :
    ∃ c, t = raiseFault c s := by
  cases hi : i.isRequest with
  | true =>
    obtain hfault | ⟨r, u, hu, rfl⟩ := exec_request_effect hi h
    · exact hfault
    · exact absurd (hu.flt.trans hf) hflt
  | false =>
    obtain ⟨-, ⟨e, rfl⟩, -⟩ := exec_emitted_cases hi h
    exact absurd hf hflt

@[simp] theorem recordObservation_flt (s : State) : (recordObservation s).flt = s.flt := by
  unfold recordObservation
  split <;> rfl

/-- A step that leaves FLT not 0 took the oldest frame and raised a fault. -/
theorem step_faulting {s t : State} (h : step s = .next t) (hflt : t.flt ≠ 0x00#8) :
    ∃ frame frames c, s.pending = frame :: frames ∧ t = raiseFault c { s with pending := framesLeft frame frames } := by
  obtain ⟨hf, ⟨-, rfl⟩ | ⟨frame, frames, u, hp, hu, rfl⟩⟩ := step_cases h
  · exact absurd hf hflt
  · obtain ⟨c, rfl⟩ | ⟨i, left, r, v, -, hv, rfl⟩ := takeFrame_cases hu
    · exact ⟨frame, frames, c, hp, recordObservation_of_no_response rfl⟩
    · rw [recordObservation_flt] at hflt
      exact absurd (hv.flt.trans hf) hflt

theorem exec_of_faulted {s : State} (h : s.flt ≠ 0x00#8) (i : Instr) : exec i s = .fault (.faulted s.flt) := by
  obtain ⟨r, hr⟩ := exec_checks_flt i s
  rw [hr, unlessFaulted_of_faulted h]

/-- Settles O8: what leaves FLT not 0 raised a fault, and every meaning and every step checks FLT first. -/
theorem faultsArePreciseAndFinal : Obligations.FaultsArePreciseAndFinal := by
  refine fun s => ⟨fun hf i t h hflt => ?_, fun _ t h hflt => ?_,
    fun hf => ⟨unlessFaulted_of_faulted hf _, exec_of_faulted hf⟩⟩
  · obtain ⟨c, rfl⟩ := exec_faulting hf h hflt
    exact ⟨rfl, faultValue_mem c⟩
  · obtain ⟨frame, frames, c, -, rfl⟩ := step_faulting h hflt
    exact ⟨rfl, faultValue_mem c⟩

/-- Settles O52: a step that faults took the oldest frame, and left what is after its request. -/
theorem aFaultingStepTakesItsFrame : Obligations.AFaultingStepTakesItsFrame := by
  intro s t _ h hflt
  obtain ⟨frame, frames, c, hp, rfl⟩ := step_faulting h hflt
  refine ⟨frame, frames, hp, ?_⟩
  unfold framesLeft
  cases decode frame with
  | instr i left => cases left <;> rfl
  | truncated => rfl

/-! The priority of faults (60_exceptions.md rule R182). -/

/-- Settles O9: none of these requests performs its body, whatever INIT is, and a frame cut short is no request at all. -/
theorem faultPriority : Obligations.FaultPriority := by
  intro s hf faulted
  have hfault (i : Instr) (hi : i.isRequest = true) (hp : ¬ Performs i s) :
      exec i s = faulted (faultValue (requestFault i s)) := (exec_request hf i hi).2 hp
  refine ⟨fun op => hfault (.reserved op) rfl id, fun id b0 b1 b2 b3 b4 b5 b6 b7 hid => ?_,
    hfault (.tabStepSet 0x00#8) rfl fun h => h rfl, fun frame frames hp hd => step_of_truncated hf hp hd⟩
  have hp : ¬ Performs (.setCustomChar id b0 b1 b2 b3 b4 b5 b6 b7) s := fun hp => hid.not_ge hp.2
  rw [hfault _ rfl hp, requestFault, apply_ite faultValue]
  rfl

/-! The admission of requests by INIT (60_exceptions.md rule R184). -/

/-- A request records the code of a fault exactly where it does not perform its body and that is its fault. -/
theorem exec_request_flt_iff {s t : State} {i : Instr} (hi : i.isRequest = true) (h : exec i s = .next t) (c : FaultCode) :
    t.flt = faultValue c ↔ ¬ Performs i s ∧ requestFault i s = c := by
  obtain ⟨hf, ⟨hp, rfl⟩ | ⟨hp, rfl⟩⟩ := exec_request_cases hi h
  · obtain ⟨r, u, hu, hbody⟩ := body_effect (s := startRequest s) hi hp
    have hzero : (body i (startRequest s)).flt = 0x00#8 := by
      rw [hbody]
      exact hu.flt.trans hf
    simp [hzero, hp, (faultValue_ne_zero c).symm]
  · simp [hp, faultValue_inj]

theorem requestFault_eq_alreadyReady_iff {i : Instr} {s : State} : requestFault i s = .alreadyReady ↔ i = .beginReq := by
  cases i with
  | setCustomChar => by_cases h : s.init = .ready <;> simp [requestFault, h]
  | _ => simp [requestFault]

theorem refused_alreadyReady_iff {i : Instr} {s : State} :
    (¬ Performs i s ∧ requestFault i s = .alreadyReady) ↔ i = .beginReq ∧ s.init ≠ .powerOn ∧ s.init ≠ .shutdown := by
  rw [requestFault_eq_alreadyReady_iff, and_comm]
  exact and_congr_right fun hbegin => by simp [hbegin, Performs]

/-- The requests that some INIT state other than READY admits: the first and the third row of the table of
60_exceptions.md rule R184. -/
def AdmittedOutsideReady (i : Instr) : Prop :=
  i = .beginReq ∨ i = .cursorGet ∨ i = .textNormalMode ∨ i = .textInvertedMode ∨ i = .tabStepGet ∨ ∃ v, i = .tabStepSet v

theorem refused_notReady_iff {i : Instr} {s : State} (hi : ∀ op, i ≠ .reserved op) :
    (¬ Performs i s ∧ requestFault i s = .notReady) ↔ s.init ≠ .ready ∧ ¬ AdmittedOutsideReady i := by
  cases i with
  | reserved op => exact absurd rfl (hi op)
  | setCustomChar => by_cases h : s.init = .ready <;> simp [Performs, requestFault, AdmittedOutsideReady, h]
  | _ => simp [Performs, requestFault, AdmittedOutsideReady]

/-- Settles O10: each admission fault is recorded exactly where the request does not perform its body and has that fault. -/
theorem admissionByInit : Obligations.AdmissionByInit := by
  intro s i hf hi hr
  obtain ⟨t, ht⟩ := exec_request_next hf hi
  have hflt := exec_request_flt_iff hi ht
  refine ⟨t, ht, (hflt .alreadyReady).trans refused_alreadyReady_iff, (hflt .notReady).trans ?_⟩
  rw [refused_notReady_iff hr]
  simp [AdmittedOutsideReady]

/-! The waits of each request (60_exceptions.md rule R190). -/

@[simp] theorem waits_append (es fs : List Event) : waits (es ++ fs) = waits es ++ waits fs := List.filterMap_append

@[simp] theorem waits_nil : waits [] = [] := rfl
@[simp] theorem waits_wait (d : Duration) (es : List Event) : waits (.wait d :: es) = d :: waits es := rfl
@[simp] theorem waits_byte (b : Byte) (es : List Event) : waits (.byte b :: es) = waits es := rfl
@[simp] theorem waits_nibble (v : Nibble) (es : List Event) : waits (.nibble v :: es) = waits es := rfl
@[simp] theorem waits_mode (m : DataMode) (es : List Event) : waits (.mode m :: es) = waits es := rfl
@[simp] theorem waits_setup (es : List Event) : waits (.setup :: es) = waits es := rfl
@[simp] theorem waits_backlight (on : Bool) (es : List Event) : waits (.backlight on :: es) = waits es := rfl

@[simp] theorem datAll_waits (bs : List Byte) (s : State) : waits (datAll bs s).tr = waits s.tr := by
  induction bs generalizing s with
  | nil => rfl
  | cons b bs ih => simp [datAll, ih]

@[simp] theorem setBitOp_waits (m : Mirror) (k : Nat) (s : State) : waits (setBitOp m k s).tr = waits s.tr := by
  simp [setBitOp]

@[simp] theorem clearBitOp_waits (m : Mirror) (k : Nat) (s : State) : waits (clearBitOp m k s).tr = waits s.tr := by
  simp [clearBitOp]

@[simp] theorem cursorSetOp_waits (x y : Int) (s : State) : waits (cursorSetOp x y s).tr = waits s.tr := by
  simp [cursorSetOp, moveTo]

@[simp] theorem linefeedOp_waits (s : State) : waits (linefeedOp s).tr = waits s.tr := by simp [linefeedOp]

@[simp] theorem printOp_waits (c : Byte) (s : State) : waits (printOp c s).tr = waits s.tr := by
  by_cases hfull : s.cx = s.w
  · simp [printOp_of_full hfull]
  · simp [printOp_of_not_full hfull]

@[simp] theorem displayClearOp_waits (s : State) : waits (displayClearOp s).tr = waits s.tr ++ [.longExec] := by
  simp [displayClearOp]

theorem classBody_waits (c : Byte) (k : StreamClass) (s : State) :
    waits (classBody c k s).tr = waits s.tr ++ if k = .ff then [.longExec] else [] := by
  cases k <;> simp [classBody, belOp, bsOp, htOp, ffOp, crOp, ctlOtherOp, lfOp, printableOp]

theorem streamClass_eq_ff_iff : ∀ c : Byte, streamClass c = .ff ↔ c = 0x0C#8 := by decide

/-- The waits that `Obligations.WaitsAreWhereTheyAreNamed` names for a request, for the transport's answer `q`. -/
def requestWaits (i : Instr) (q : Bool) : List Duration :=
  if i = .beginReq then .powerOn :: (if q then [] else [.initLong, .initShort, .initShort, .initShort]) ++ [.longExec]
  else if i ∈ [.displayClear, .cursorHome, .writeFf, .write 0x0C#8] then [.longExec]
  else []

theorem beginOp_waits (q : Bool) (s : State) : waits (beginOp q s).tr = waits s.tr ++ requestWaits .beginReq q := by
  rw [beginOp_eq]
  cases q <;> simp [bootstrapEvents, requestWaits]

/-- A body adds the waits named for its request to the trace. -/
theorem body_waits (i : Instr) (s : State) : waits (body i s).tr = waits s.tr ++ requestWaits i (setupAnswer s) := by
  cases i with
  | beginReq => exact beginOp_waits _ s
  | write c => simp [body, classBody_waits, streamClass_eq_ff_iff, requestWaits]
  | writeBel => exact classBody_waits 0x07#8 .bel s
  | writeBs => exact classBody_waits 0x08#8 .bs s
  | writeHt => exact classBody_waits 0x09#8 .ht s
  | writeLf => exact classBody_waits 0x0A#8 .lf s
  | writeFf => exact classBody_waits 0x0C#8 .ff s
  | writeCr => exact classBody_waits 0x0D#8 .cr s
  | writeCtlOther c => exact classBody_waits c .ctlOther s
  | writePrintable c => exact classBody_waits c .printable s
  | _ => simp [body, requestWaits, cursorHomeOp, setCustomCharOp]

/-- Settles O45: a request that does not fault performs its body, from an empty trace. -/
theorem waitsAreWhereTheyAreNamed : Obligations.WaitsAreWhereTheyAreNamed := by
  intro s t i hi h hflt
  obtain ⟨-, rfl⟩ := exec_request_of_no_fault hi h hflt
  exact body_waits i (startRequest s)

end Sys2Proof.Machine
end

