-- ==== Sys2Proof/Proofs/Reset.lean ====
section
/-! PROOFS. Construction as the reset, and the engine after its first BEGIN (70_reset_and_hazards.md rules R200, R201). -/

namespace Sys2Proof.Machine

/-- A built engine is the reset one of its geometry, and that geometry is admitted. -/
theorem construct_eq_next_iff {w h : Nat} {s : State} :
    State.construct w h = .next s ↔ geometryAdmitted w h = true ∧ s = State.initial w h := by
  refine ⟨fun hs => ?_, fun ⟨hg, hs⟩ => hs ▸ construct_of_admitted hg⟩
  by_cases hg : geometryAdmitted w h = true
  · rw [construct_of_admitted hg] at hs
    cases hs
    exact ⟨hg, rfl⟩
  · rw [construct_of_not_admitted hg] at hs
    cases hs

/-- The invariant reads nothing of the answers that the transport will give. -/
theorem State.Inv.withSetupAnswers {s : State} (hI : s.Inv) (answers : List Bool) :
    { s with setupAnswers := answers }.Inv := { hI with }

/-- Settles O13: a built engine is `State.initial`, whose fields are the reset table, and its first BEGIN is the handshake
from POWER_ON, whose MODE and CNTL are the reset values with one bit set. -/
theorem resetValuesAndFirstBegin : Obligations.ResetValuesAndFirstBegin := by
  intro w h s hs
  obtain ⟨hg, rfl⟩ := construct_eq_next_iff.1 hs
  refine ⟨?_, fun answers => ?_⟩
  · and_intros <;> rfl
  · have hI := (State.initial_inv hg).withSetupAnswers answers
    obtain ⟨-, hbegin⟩ := beginHandshake
    obtain ⟨hstart, -⟩ := hbegin _ hI rfl
    have hcntl : 0x08#8 ||| 0x04#8 = 0x0C#8 := by decide
    have hmode : 0x06#8 ||| 0x02#8 = 0x06#8 := by decide
    exact ⟨_, hstart (.inl rfl), rfl, rfl, hcntl, hmode, rfl, rfl, rfl, rfl, rfl, rfl, rfl, rfl, rfl⟩

end Sys2Proof.Machine
end
